-- ==== Sys2Proof/Word.lean ====
section
/-! DEFINITION. The word types of the block: a byte (R7), a packet (R45) and the 48-bit Q32.16 pattern (R13). -/

namespace Sys2Proof

/-- A byte is 8 bits, unsigned 0 to 255 (R7). -/
abbrev Byte := BitVec 8

/-- One command or one response: a finite byte sequence (R45). -/
abbrev Packet := List Byte

/-- The 48-bit pattern of a reading or threshold register, signed fixed point with 16 fractional bits (R13). -/
abbrev Q3216 := BitVec 48

/-- A raw 24-bit code as the sensor delivers it, before the two's-complement reading (R80). -/
abbrev Raw24 := BitVec 24

/-- The 18-byte calibration block read as one 144-bit string, byte 0 most significant (R34). -/
abbrev CalBlock := BitVec 144

end Sys2Proof
end

