-- ==== Sys2Proof/Config.lean ====
section
/-! DEFINITION. The implementation parameters of R5: constants, the two parameters SCALE and PARITY as one record
that cannot hold an illegal table (R6), and the one value the spec leaves open. -/

namespace Sys2Proof
namespace Config

/-- `DECW_MAX`: the largest width the DEC operation accepts (R5, decision D5). -/
def decwMax : Nat := 24

/-- `POLLMS`: the poll interval in milliseconds, a constant readable as a register (R5, R21). -/
def pollMs : Nat := 100

/-- The default thresholds as plain numbers: upperPressure, lowerPressure, upperTemperature, lowerTemperature (R5). -/
def upperPressure : Int := 1020
def lowerPressure : Int := 990
def upperTemperature : Int := 35
def lowerTemperature : Int := 5

/-- The default ScaleFactor table (R5, decision D7; the spec marks the numbers as general knowledge).
PRESUMED, log entry 1. -/
def defaultScale : Vector Nat 8 :=
  #v[524288, 1572864, 3670016, 7864320, 253952, 516096, 1040384, 2088960]

/-- The temperature magnitude bound of R91, `1024 + 2048 * 2^23 / KT < 2^31`, multiplied out by `KT`. -/
def temperatureBoundOk (kt : Nat) : Bool :=
  decide (2 ^ 10 * kt + 2 ^ 34 < 2 ^ 31 * kt)

/-- The pressure magnitude bound of R91,
`2^19 + 2^19 a + 2^15 a^2 + 2^15 a^3 + 2^15 b + 2^15 a b + 2^15 a^2 b < 2^31` with `a = 2^23 / KP`, `b = 2^23 / KT`,
multiplied out by `KP^3 * KT`. -/
def pressureBoundOk (kt kp : Nat) : Bool :=
  decide (2 ^ 19 * kp ^ 3 * kt + 2 ^ 42 * kp ^ 2 * kt + 2 ^ 61 * kp * kt + 2 ^ 84 * kt
    + 2 ^ 38 * kp ^ 3 + 2 ^ 61 * kp ^ 2 + 2 ^ 84 * kp < 2 ^ 31 * kp ^ 3 * kt)

/-- R6: every entry is greater than zero and the bounds of R91 stay below 2^31. -/
def legalScale (scale : Vector Nat 8) : Bool :=
  scale.toList.all (fun k => decide (0 < k))
    && temperatureBoundOk scale[0] && pressureBoundOk scale[0] scale[1]

/-- What RD returns for a SCALE entry that is no 47-bit number: R6 sets no upper limit on an entry, R61 answers
`tc_48` of it and R8 defines `tc_48` only below 2^47, so the spec states no value there. Free value of the index and
the entry; nothing in Lean can evaluate it. DESIGN CHOICE, log entry 2. -/
opaque wideScaleReadOut : Fin 8 → Nat → BitVec 48

end Config

/-- The parameter record of the block (R5, R23): the ScaleFactor table and the PARITY switch. The third field is the
check of R6, so a record with an illegal table cannot be built ("A model refuses an illegal configuration when it is
built"). -/
structure Params where
  /-- `SCALE[0..7]`, each entry a positive divisor. -/
  scale : Vector Nat 8
  /-- `PARITY`: temperature is compared with the pressure thresholds when true (R100). -/
  parity : Bool
  /-- The table is legal (R6). -/
  legal : Config.legalScale scale = true
  deriving DecidableEq, Repr

namespace Params

/-- `KT`, the divisor of the raw temperature: `SCALE[0]` (R92). -/
def kt (p : Params) : Nat := p.scale[0]

/-- `KP`, the divisor of the raw pressure: `SCALE[1]` (R92). -/
def kp (p : Params) : Nat := p.scale[1]

/-- The default configuration: the default table and `PARITY = false` (R5). -/
def default : Params :=
  { scale := Config.defaultScale, parity := false, legal := by decide }

end Params
end Sys2Proof
end

