-- ==== Sys2Proof/Syntax.lean ====
section
/-! DEFINITION. The eight operations of DSC command set version 1 (R46), with their operands already assembled (R57),
and the names of the readable registers (R113). -/

namespace Sys2Proof

/-- One command of the block, one constructor per row of the opcode table. The operands are raw fields of the packet:
the value checks of DEC and RD belong to the operations (R68, R114). -/
inductive Instr
  /-- `0x01` DEC: width field and 24-bit unsigned value (R50, R68). -/
  | dec (w : BitVec 5) (v : Raw24)
  /-- `0x02` LDCAL: the 18 calibration bytes as one 144-bit string (R51, R75). -/
  | ldcal (block : CalBlock)
  /-- `0x03` SAMPLE: raw temperature, then raw pressure (R52, R82). -/
  | sample (uT uP : Raw24)
  /-- `0x04` SETTHRP: upper, then lower pressure threshold (R53, R97). -/
  | setthrp (upper lower : Q3216)
  /-- `0x05` SETTHRT: upper, then lower temperature threshold (R53, R98). -/
  | setthrt (upper lower : Q3216)
  /-- `0x06` CMP (R54, R102). -/
  | cmp
  /-- `0x07` EVCLR: one mask bit per event flag (R55, R106). -/
  | evclr (m : BitVec 4)
  /-- `0x08` RD: the register number (R56, R114). -/
  | rd (n : BitVec 8)
  deriving DecidableEq, Repr

/-- The readable registers of R113, by name. -/
inductive RegName
  | c0 | c1 | c00 | c10 | c01 | c11 | c20 | c21 | c30
  | tmp | prs | dispT | dispP
  | upp | lop | upt | lot
  | status | pollms
  | scale (i : Fin 8)
  deriving DecidableEq, Repr

end Sys2Proof
end

