-- ==== Sys2Proof/WellFormed.lean ====
section
/-! DEFINITION. Which commands carry legal operand values: the checks R58 (d), (e) and (g) put on operands. An
ill-formed command is still a command of its opcode; its operation answers `ILL` (R68, R114). -/

namespace Sys2Proof

/-- R50, R68: the width is 1 to 24 and the value fits in it. -/
def decOperandsLegal (w : BitVec 5) (v : Raw24) : Bool :=
  decide (1 ≤ w.toNat) && decide (w.toNat ≤ Config.decwMax) && decide (v.toNat < 2 ^ w.toNat)

/-- The register numbers listed in R113, as the ranges of the opcode table's row:
`0x00-0x08`, `0x10-0x13`, `0x20-0x23`, `0x30`, `0x31`, `0x40-0x47`. -/
def registerListed (n : BitVec 8) : Bool :=
  decide (n.toNat ≤ 0x08)
    || (decide (0x10 ≤ n.toNat) && decide (n.toNat ≤ 0x13))
    || (decide (0x20 ≤ n.toNat) && decide (n.toNat ≤ 0x23))
    || decide (n.toNat = 0x30) || decide (n.toNat = 0x31)
    || (decide (0x40 ≤ n.toNat) && decide (n.toNat ≤ 0x47))

/-- A command whose operand values are legal (R58). Every other operation admits every operand value. -/
def Instr.wellFormed : Instr → Bool
  | .dec w v => decOperandsLegal w v
  | .ldcal _ => true
  | .sample _ _ => true
  | .setthrp _ _ => true
  | .setthrt _ _ => true
  | .cmp => true
  | .evclr _ => true
  | .rd n => registerListed n

end Sys2Proof
end

