-- ==== Sys2Proof/Decode.lean ====
section
/-! DEFINITION. Byte order (R32, R33), the opcode map (R46), the packet decoder, total and rejecting by name (R47),
and the encoder beside it. -/

namespace Sys2Proof

/-! ## Byte order -/

/-- The unsigned number a byte sequence stands for, most significant byte first (R32, R33). -/
def beNat : List Byte → Nat
  | [] => 0
  | b :: bs => b.toNat * 256 ^ bs.length + beNat bs

/-- The `n` bytes of a number, most significant byte first (R33); only its `8 * n` low bits count. -/
def beBytes : Nat → Nat → List Byte
  | 0, _ => []
  | n + 1, x => BitVec.ofNat 8 (x / 256 ^ n) :: beBytes n x

/-! ## The opcode map -/

/-- The eight operations, without operands. -/
inductive Opcode
  | dec | ldcal | sample | setthrp | setthrt | cmp | evclr | rd
  deriving DecidableEq, Repr

/-- The opcode byte (R46). -/
def Opcode.code : Opcode → Byte
  | .dec => 0x01
  | .ldcal => 0x02
  | .sample => 0x03
  | .setthrp => 0x04
  | .setthrt => 0x05
  | .cmp => 0x06
  | .evclr => 0x07
  | .rd => 0x08

/-- The exact length of the command packet, the opcode byte included (R46 column `len`). -/
def Opcode.len : Opcode → Nat
  | .dec => 5
  | .ldcal => 19
  | .sample => 7
  | .setthrp => 13
  | .setthrt => 13
  | .cmp => 1
  | .evclr => 2
  | .rd => 2

/-- The operation an opcode byte names; `0x00` and `0x09` to `0xFF` are reserved (R49). -/
def opcodeOf (b : Byte) : Option Opcode :=
  match b.toNat with
  | 1 => some .dec
  | 2 => some .ldcal
  | 3 => some .sample
  | 4 => some .setthrp
  | 5 => some .setthrt
  | 6 => some .cmp
  | 7 => some .evclr
  | 8 => some .rd
  | _ => none

/-- The operation of a command. -/
def Instr.opcode : Instr → Opcode
  | .dec _ _ => .dec
  | .ldcal _ => .ldcal
  | .sample _ _ => .sample
  | .setthrp _ _ => .setthrp
  | .setthrt _ _ => .setthrt
  | .cmp => .cmp
  | .evclr _ => .evclr
  | .rd _ => .rd

/-! ## The decoder -/

/-- Why a packet is no command of the set (R58 (a), (b), (c) and the reserved bits of (d), (f)). The block answers the
same `ILL` to all of them (R120). -/
inductive DecodeError
  /-- R58 (a): no opcode byte. -/
  | emptyPacket
  /-- R58 (b): opcode `0x00` or `0x09` to `0xFF`. -/
  | reservedOpcode
  /-- R58 (c): the length is not the opcode's `len`. -/
  | wrongLength
  /-- R58 (d), (f): DEC byte 1 bits 7:5 or EVCLR byte 1 bits 7:4 not zero. -/
  | reservedBits
  deriving DecidableEq, Repr

/-- The operands of each format, from the bytes after the opcode (R50 to R57). The length has been checked. -/
def decodeOperands : Opcode → List Byte → Except DecodeError Instr
  | .dec, args =>
    if beNat (args.take 1) < 2 ^ 5 then
      .ok (.dec (BitVec.ofNat 5 (beNat (args.take 1))) (BitVec.ofNat 24 (beNat (args.drop 1))))
    else .error .reservedBits
  | .ldcal, args => .ok (.ldcal (BitVec.ofNat 144 (beNat args)))
  | .sample, args =>
    .ok (.sample (BitVec.ofNat 24 (beNat (args.take 3))) (BitVec.ofNat 24 (beNat (args.drop 3))))
  | .setthrp, args =>
    .ok (.setthrp (BitVec.ofNat 48 (beNat (args.take 6))) (BitVec.ofNat 48 (beNat (args.drop 6))))
  | .setthrt, args =>
    .ok (.setthrt (BitVec.ofNat 48 (beNat (args.take 6))) (BitVec.ofNat 48 (beNat (args.drop 6))))
  | .cmp, _ => .ok .cmp
  | .evclr, args =>
    if beNat args < 2 ^ 4 then .ok (.evclr (BitVec.ofNat 4 (beNat args)))
    else .error .reservedBits
  | .rd, args => .ok (.rd (BitVec.ofNat 8 (beNat args)))

/-- R47: read byte 0, look up its length, require exactly that length, then take the operands. -/
def decode (p : Packet) : Except DecodeError Instr :=
  match p with
  | [] => .error .emptyPacket
  | b :: args =>
    match opcodeOf b with
    | none => .error .reservedOpcode
    | some o =>
      if args.length + 1 = o.len then decodeOperands o args else .error .wrongLength

/-! ## The encoder -/

/-- The bytes after the opcode byte, format by format (R50 to R56). -/
def encodeOperands : Instr → List Byte
  | .dec w v => beBytes 1 w.toNat ++ beBytes 3 v.toNat
  | .ldcal block => beBytes 18 block.toNat
  | .sample uT uP => beBytes 3 uT.toNat ++ beBytes 3 uP.toNat
  | .setthrp upper lower => beBytes 6 upper.toNat ++ beBytes 6 lower.toNat
  | .setthrt upper lower => beBytes 6 upper.toNat ++ beBytes 6 lower.toNat
  | .cmp => []
  | .evclr m => beBytes 1 m.toNat
  | .rd n => beBytes 1 n.toNat

/-- The command packet of an instruction (R59). -/
def encode (i : Instr) : Packet := i.opcode.code :: encodeOperands i

/-! ## Words of the opcode table -/

/-- The packet of an opcode-table word: the table reads a whole packet as one number with byte 0 leftmost, so bit 0 is
the least significant bit of the LAST byte of the row. When the row is shorter than the opcode's packet the
missing operand bytes follow as zeros. DEDUCED, log entry 3. -/
def tableBytes (nbits w : Nat) : Packet :=
  let given := beBytes (nbits / 8) w
  match given with
  | [] => []
  | b :: _ =>
    match opcodeOf b with
    | none => given
    | some o => given ++ List.replicate (o.len - given.length) 0

/-- What the decoder reads from an opcode-table word. -/
def decodeTableWord (nbits w : Nat) : Option Instr :=
  match decode (tableBytes nbits w) with
  | .ok i => some i
  | .error _ => none

end Sys2Proof
end

