-- ==== Sys2Proof/Machine/State.lean ====
section
/-! DEFINITION. The state: the block's record S of R10, the parameter record, the command and reset inputs still to
come, and the responses and event pulses given so far (the ports of R26). -/

namespace Sys2Proof
namespace Machine

/-- The nine calibration coefficient registers, two's complement of their stated widths (R10, R11). -/
structure Coeffs where
  c0 : BitVec 12
  c1 : BitVec 12
  c00 : BitVec 20
  c10 : BitVec 20
  c01 : BitVec 16
  c11 : BitVec 16
  c20 : BitVec 16
  c21 : BitVec 16
  c30 : BitVec 16
  deriving DecidableEq, Repr

/-- The block's state `S`: exactly the elements of R10. -/
structure Regs where
  /-- `C0` … `C30`. -/
  cal : Coeffs
  /-- `CALV`: calibration loaded (R12). -/
  calv : Bool
  /-- `TMP`: last scaled temperature (R14). -/
  tmp : Q3216
  /-- `PRS`: last scaled pressure (R14). -/
  prs : Q3216
  /-- `UPP`: upper pressure threshold (R16). -/
  upp : Q3216
  /-- `LOP`: lower pressure threshold (R16). -/
  lop : Q3216
  /-- `UPT`: upper temperature threshold (R16). -/
  upt : Q3216
  /-- `LOT`: lower temperature threshold (R16). -/
  lot : Q3216
  /-- `ARMED`: monitor armed (R17). -/
  armed : Bool
  /-- `CPREV[3:0]`: the condition bits of the previous effective CMP (R18). -/
  cprev : BitVec 4
  /-- `EVF[3:0]`: sticky event flags (R19). -/
  evf : BitVec 4
  deriving DecidableEq, Repr

/-- The two sources of commands (R131). -/
inductive Requester
  | host
  | monitor
  deriving DecidableEq, Repr

/-- What can arrive at the block between two steps: a frame on `cmd`, or a change of the level of `rst_i` (R26). The
requester is carried beside the frame; no operation depends on it (R23). -/
inductive Input
  /-- `rst_i` is asserted, and stays so until it is released (R26, R140). -/
  | reset
  /-- `rst_i` is released. -/
  | release
  | command (sender : Requester) (packet : Packet)
  deriving DecidableEq, Repr

/-- What the block gives the environment when it executes one packet: the frame on `rsp` and the pulses on
`ev_hit_o[3:0]` and `ev_edge_o[3:0]` (R26, R127). -/
structure Output where
  rsp : Packet
  hit : BitVec 4
  edge : BitVec 4
  deriving DecidableEq, Repr

/-- The machine's state. `regs` is the spec's `S`; the other fields are the model's own, for what R23 calls the inputs
and parameters of a step, for the level of `rst_i` (R26) and for what R157 calls the result of a run (log entries 4, 5,
6 and 15). -/
structure State where
  /-- The block's state `S` (R10). -/
  regs : Regs
  /-- The parameter record; no step changes it (R5). -/
  params : Params
  /-- The level of the port `rst_i`: asserted when true (R26, log entry 15). -/
  rst : Bool
  /-- The inputs still to come, in the order the ports accept them (R39, R40). -/
  inputs : List Input
  /-- The outputs given so far, oldest first: one per executed packet (R45, R157). -/
  out : List Output
  deriving DecidableEq, Repr

/-- Reasons the machine could stop with a fault. There is none: `ILL`, "the block's only fault" (R120), is a response
after which the next packet executes normally, so it is a next state. No constructor is needed and none is safe or
not safe to raise. -/
inductive Fault
  deriving DecidableEq, Repr

/-- Reasons for refusing an instruction. -/
inductive Refusal
  /-- Raised only by an arm of `exec` that has no meaning yet; safe (nothing is claimed of the instruction). No arm
  raises it in this model. -/
  | notModelled (mnemonic : String)
  deriving DecidableEq, Repr

/-- All nine coefficients at their reset value zero (R11, R24). -/
def Coeffs.zero : Coeffs :=
  { c0 := 0, c1 := 0, c00 := 0, c10 := 0, c01 := 0, c11 := 0, c20 := 0, c21 := 0, c30 := 0 }

/-- The reset values of R24: thresholds 1020, 990, 35 and 5 in Q32.16, everything else zero. -/
def Regs.reset : Regs :=
  { cal := Coeffs.zero
    calv := false
    tmp := 0
    prs := 0
    upp := 0x000003FC0000#48
    lop := 0x000003DE0000#48
    upt := 0x000000230000#48
    lot := 0x000000050000#48
    armed := false
    cprev := 0
    evf := 0 }

/-- The machine right after reset (R24, R140), with the default parameters (R5), `rst_i` released and nothing at
the other ports. -/
def State.reset : State :=
  { regs := Regs.reset, params := Params.default, rst := false, inputs := [], out := [] }

end Machine
end Sys2Proof
end

