-- ==== Sys2Proof/Machine/Operands.lean ====
section
/-! DEFINITION. How operands become values: the two's-complement decoder (R65), the pattern of a signed number (R8),
the calibration extraction table (R74), and the map of readable register numbers (R113). -/

namespace Sys2Proof
namespace Machine

/-- R65: the `w`-bit pattern `v` read as a signed integer, for `1 ≤ w` and `v < 2^w`. -/
def dec (v w : Nat) : Int :=
  if v.testBit (w - 1) then (v : Int) - 2 ^ w else v

/-- R8: the `n`-bit two's-complement pattern of an integer; the spec uses it for `-2^(n-1) ≤ x < 2^(n-1)` only. -/
def tc (n : Nat) (x : Int) : BitVec n := BitVec.ofInt n x

/-- `byteK` of the calibration block, packet byte `K + 1` (R51, R73). -/
def calByte (block : CalBlock) (k : Nat) : Nat := block.toNat / 256 ^ (17 - k) % 256

/-! The nine unsigned fields of R74, term by term as the table writes them. -/

def calU0 (b : CalBlock) : Nat := (calByte b 0 <<< 4) ||| (calByte b 1 >>> 4)
def calU1 (b : CalBlock) : Nat := ((calByte b 1 &&& 0x0F) <<< 8) ||| calByte b 2
def calU00 (b : CalBlock) : Nat := (calByte b 3 <<< 12) ||| (calByte b 4 <<< 4) ||| (calByte b 5 >>> 4)
def calU10 (b : CalBlock) : Nat := ((calByte b 5 &&& 0x0F) <<< 16) ||| (calByte b 6 <<< 8) ||| calByte b 7
def calU01 (b : CalBlock) : Nat := (calByte b 8 <<< 8) ||| calByte b 9
def calU11 (b : CalBlock) : Nat := (calByte b 10 <<< 8) ||| calByte b 11
def calU20 (b : CalBlock) : Nat := (calByte b 12 <<< 8) ||| calByte b 13
def calU21 (b : CalBlock) : Nat := (calByte b 14 <<< 8) ||| calByte b 15
def calU30 (b : CalBlock) : Nat := (calByte b 16 <<< 8) ||| calByte b 17

/-- The nine coefficients of a calibration block, each decoded at its width (R74, R75). -/
def unpackCal (b : CalBlock) : Coeffs :=
  { c0 := tc 12 (dec (calU0 b) 12)
    c1 := tc 12 (dec (calU1 b) 12)
    c00 := tc 20 (dec (calU00 b) 20)
    c10 := tc 20 (dec (calU10 b) 20)
    c01 := tc 16 (dec (calU01 b) 16)
    c11 := tc 16 (dec (calU11 b) 16)
    c20 := tc 16 (dec (calU20 b) 16)
    c21 := tc 16 (dec (calU21 b) 16)
    c30 := tc 16 (dec (calU30 b) 16) }

/-- The inverse packing of R77: the nine patterns concatenated, first byte most significant. -/
def packCal (c : Coeffs) : CalBlock :=
  c.c0 ++ c.c1 ++ c.c00 ++ c.c10 ++ c.c01 ++ c.c11 ++ c.c20 ++ c.c21 ++ c.c30

/-- The raw code of a 24-bit sample (R80). -/
def rawCode (u : Raw24) : Int := dec u.toNat 24

/-- The register a number names (R113); the numbers not listed are reserved (R58 (g)). -/
def regOf (n : BitVec 8) : Option RegName :=
  match n.toNat with
  | 0x00 => some .c0
  | 0x01 => some .c1
  | 0x02 => some .c00
  | 0x03 => some .c10
  | 0x04 => some .c01
  | 0x05 => some .c11
  | 0x06 => some .c20
  | 0x07 => some .c21
  | 0x08 => some .c30
  | 0x10 => some .tmp
  | 0x11 => some .prs
  | 0x12 => some .dispT
  | 0x13 => some .dispP
  | 0x20 => some .upp
  | 0x21 => some .lop
  | 0x22 => some .upt
  | 0x23 => some .lot
  | 0x30 => some .status
  | 0x31 => some .pollms
  | 0x40 => some (.scale 0)
  | 0x41 => some (.scale 1)
  | 0x42 => some (.scale 2)
  | 0x43 => some (.scale 3)
  | 0x44 => some (.scale 4)
  | 0x45 => some (.scale 5)
  | 0x46 => some (.scale 6)
  | 0x47 => some (.scale 7)
  | _ => none

end Machine
end Sys2Proof
end

