-- ==== Sys2Proof/Machine/Ops.lean ====
section
/-! DEFINITION. The named operations every meaning is built from: the register updates, the response to a command,
the fault response `ILL` as one shared operation (R120), the refusal `LOCKED` (R121), and reset (R140).
The block has no memory and no return from anything (R22, R129), so nothing stands here for either. -/

namespace Sys2Proof
namespace Machine

/-! ## Register updates: all writes of one operation happen together (R8, R37) -/

def State.setRegs (s : State) (r : Regs) : State := { s with regs := r }

def State.setRst (s : State) (level : Bool) : State := { s with rst := level }

def State.setInputs (s : State) (i : List Input) : State := { s with inputs := i }

/-- LDCAL's write: the nine coefficients and `CALV` together (R75). -/
def Regs.loadCal (r : Regs) (c : Coeffs) : Regs := { r with cal := c, calv := true }

/-- SAMPLE's write: `TMP` and `PRS` together (R37, R82). -/
def Regs.setReadings (r : Regs) (t p : Q3216) : Regs := { r with tmp := t, prs := p }

/-- SETTHRP's write (R97). -/
def Regs.setPressure (r : Regs) (upper lower : Q3216) : Regs :=
  { r with upp := upper, lop := lower, armed := true }

/-- SETTHRT's write (R98). -/
def Regs.setTemperature (r : Regs) (upper lower : Q3216) : Regs :=
  { r with upt := upper, lot := lower, armed := true }

/-- CMP's write (R102). -/
def Regs.setEvents (r : Regs) (cprev evf : BitVec 4) : Regs := { r with cprev := cprev, evf := evf }

/-- EVCLR's write (R106). -/
def Regs.setEvf (r : Regs) (evf : BitVec 4) : Regs := { r with evf := evf }

/-! ## Responses -/

/-- The three status bytes; no other is ever emitted (R48). -/
inductive Status
  | ok | ill | locked
  deriving DecidableEq, Repr

def Status.code : Status → Byte
  | .ok => 0x00
  | .ill => 0x01
  | .locked => 0x02

/-- The bytes of an `8 * n`-bit pattern, most significant first (R33). -/
def patternBytes (n : Nat) (x : BitVec (8 * n)) : List Byte := beBytes n x.toNat

/-- Put one output at the ports (R39: the response is emitted before the next packet is executed). -/
def State.emit (s : State) (o : Output) : State := { s with out := s.out ++ [o] }

/-- `respond(st, payload)` of R8, with no event pulse. -/
def respond (st : Status) (payload : List Byte) (s : State) : State :=
  s.emit { rsp := st.code :: payload, hit := 0, edge := 0 }

/-- `respond(OK, payload)` together with the pulses of a CMP, which are simultaneous with it (R102, R127, R128). -/
def respondPulsing (payload : List Byte) (hit edge : BitVec 4) (s : State) : State :=
  s.emit { rsp := Status.ok.code :: payload, hit := hit, edge := edge }

/-- `raise ILL` of R8: the response `01` with no payload, no state change, no pulse, nothing recorded; the next packet
is executed normally (R120). -/
def raiseIll (s : State) : Host.Outcome State Fault Refusal := .next (respond .ill [] s)

/-- The answer of a legal LDCAL that finds `CALV = 1` (R76, R121). -/
def answerLocked (s : State) : Host.Outcome State Fault Refusal := .next (respond .locked [] s)

/-! ## The steps that execute no packet -/

/-- The assertion of `rst_i` (R140): every state element at its reset value, no response and no pulse. Inputs still to come,
the parameters and the outputs already given are no state of the block and stay. -/
def takeReset (s : State) : Host.Outcome State Fault Refusal := .next ((s.setRegs Regs.reset).setRst true)

/-- "while asserted the state is the reset state of rule R24" (R26). -/
def holdReset (s : State) : State := if s.rst then s.setRegs Regs.reset else s

/-- The release of `rst_i`: the block leaves reset in the reset state (R26, R141). -/
def releaseReset (s : State) : Host.Outcome State Fault Refusal := .next ((holdReset s).setRst false)

/-- Hold the state that an operation leaves. -/
def thenHold : Host.Outcome State Fault Refusal → Host.Outcome State Fault Refusal
  | .next t => .next (holdReset t)
  | .fault r => .fault r
  | .refused r => .refused r

/-- No frame has been accepted: the block is ready and nothing happens (R137, R157). DEDUCED, log entry 7. -/
def idle (s : State) : Host.Outcome State Fault Refusal := .next s

/-- The levels driven on `evf_o[3:0]` and `armed_o` (R26). -/
def State.evfO (s : State) : BitVec 4 := s.regs.evf
def State.armedO (s : State) : Bool := s.regs.armed

end Machine
end Sys2Proof
end

