-- ==== Sys2Proof/Machine/Calibration.lean ====
section
/-! DEFINITION. The calibration store's operation: LDCAL (R75, R76). -/

namespace Sys2Proof
namespace Machine

/-- LDCAL (R75): while `CALV = 1` it changes nothing and answers `LOCKED` (R76); else it loads the nine decoded
coefficients and sets `CALV`. -/
def execLdcal (block : CalBlock) (s : State) : Host.Outcome State Fault Refusal :=
  if s.regs.calv then answerLocked s
  else .next (respond .ok [] (s.setRegs (s.regs.loadCal (unpackCal block))))

end Machine
end Sys2Proof
end

