-- ==== Sys2Proof/Machine/Decoder.lean ====
section
/-! DEFINITION. The two's-complement decoder's operation: DEC (R68). -/

namespace Sys2Proof
namespace Machine

/-- DEC (R68): `ILL` unless `1 ≤ w ≤ 24` and `v < 2^w`; else the 32-bit pattern of `dec(v, w)`. Reads and writes no
register (R69). The reserved bits 7:5 of byte 1 are refused by the decoder. -/
def execDec (w : BitVec 5) (v : Raw24) (s : State) : Host.Outcome State Fault Refusal :=
  if w.toNat = 0 ∨ Config.decwMax < w.toNat then raiseIll s
  else if 2 ^ w.toNat ≤ v.toNat then raiseIll s
  else .next (respond .ok (patternBytes 4 (tc 32 (dec v.toNat w.toNat))) s)

end Machine
end Sys2Proof
end

