-- ==== Sys2Proof/Machine/Flags.lean ====
section
/-! DEFINITION. The condition bits, their rising edges and the STATUS word (R18 to R20, R100, R102). -/

namespace Sys2Proof
namespace Machine

/-- Four event bits in the spec's order: bit 0 pressure-high, 1 pressure-low, 2 temperature-high, 3 temperature-low
(R26). -/
def eventBits (pHigh pLow tHigh tLow : Bool) : BitVec 4 :=
  BitVec.ofBool tLow ++ BitVec.ofBool tHigh ++ BitVec.ofBool pLow ++ BitVec.ofBool pHigh

/-- `sext_48(x) >= sext_48(y)`, the signed comparison of two Q32.16 registers (R13, R100). -/
def sge (x y : Q3216) : Bool := decide (y.toInt ≤ x.toInt)

/-- The upper threshold the temperature is compared with (R100). -/
def upperForTemperature (p : Params) (r : Regs) : Q3216 := if p.parity then r.upp else r.upt

/-- The lower threshold the temperature is compared with (R100). -/
def lowerForTemperature (p : Params) (r : Regs) : Q3216 := if p.parity then r.lop else r.lot

/-- `COND[3:0]` (R100): both comparisons of each channel are inclusive. -/
def condBits (p : Params) (r : Regs) : BitVec 4 :=
  eventBits (sge r.prs r.upp) (sge r.lop r.prs)
    (sge r.tmp (upperForTemperature p r)) (sge (lowerForTemperature p r) r.tmp)

/-- `EDGE[3:0]`: the conditions that hold now and did not at the previous effective CMP (R102). -/
def edgeOf (hit cprev : BitVec 4) : BitVec 4 := hit &&& ~~~cprev

/-- The sticky flags after a CMP (R102). -/
def evfAfterCmp (evf edge : BitVec 4) : BitVec 4 := evf ||| edge

/-- The sticky flags after an EVCLR (R106). -/
def evfAfterClear (evf m : BitVec 4) : BitVec 4 := evf &&& ~~~m

/-- The payload byte of CMP: `(EDGE << 4) | HIT` (R54, R61). -/
def cmpPayload (edge hit : BitVec 4) : Byte := edge ++ hit

/-- STATUS (R20): bit 0 `ARMED`, bit 1 `CALV`, bits 3:2 zero, bits 7:4 `EVF`, bits 11:8 `CPREV`, the rest zero. -/
def statusWord (r : Regs) : BitVec 48 :=
  0#36 ++ r.cprev ++ r.evf ++ 0#2 ++ BitVec.ofBool r.calv ++ BitVec.ofBool r.armed

end Machine
end Sys2Proof
end

