-- ==== Sys2Proof/Machine/Sample.lean ====
section
/-! DEFINITION. The polynomial evaluator: SAMPLE (R82) in the integer form of R86 and R87, and the one-decimal display
rounding in the integer form of R90. The rational form stands in Machine/Exact.lean. -/

namespace Sys2Proof
namespace Machine

/-- `NT = c0 * KT + 2 * c1 * rawT` (R86). -/
def tempNum (kt : Nat) (c : Coeffs) (rawT : Int) : Int :=
  c.c0.toInt * kt + 2 * c.c1.toInt * rawT

/-- `NP` (R86). -/
def presNum (kt kp : Nat) (c : Coeffs) (rawT rawP : Int) : Int :=
  c.c00.toInt * kp ^ 3 * kt + c.c10.toInt * rawP * kp ^ 2 * kt + c.c20.toInt * rawP ^ 2 * kp * kt
    + c.c30.toInt * rawP ^ 3 * kt
    + c.c01.toInt * rawT * kp ^ 3 + c.c11.toInt * rawT * rawP * kp ^ 2 + c.c21.toInt * rawT * rawP ^ 2 * kp

/-- `DP = KP^3 * KT`, a positive integer (R86). -/
def presDen (kt kp : Nat) : Int := (kp : Int) ^ 3 * kt

/-- `floor(NT * 32768 / KT)` (R87): integer division by a positive divisor rounds toward minus infinity. -/
def tempFixed (kt : Nat) (c : Coeffs) (rawT : Int) : Int := tempNum kt c rawT * 32768 / kt

/-- `floor(NP * 65536 / DP)` (R87). -/
def presFixed (kt kp : Nat) (c : Coeffs) (rawT rawP : Int) : Int :=
  presNum kt kp c rawT rawP * 65536 / presDen kt kp

/-- The pattern SAMPLE writes to `TMP` (R87). -/
def sampledTmp (p : Params) (c : Coeffs) (uT : Raw24) : Q3216 :=
  tc 48 (tempFixed p.kt c (rawCode uT))

/-- The pattern SAMPLE writes to `PRS` (R87). -/
def sampledPrs (p : Params) (c : Coeffs) (uT uP : Raw24) : Q3216 :=
  tc 48 (presFixed p.kt p.kp c (rawCode uT) (rawCode uP))

/-- SAMPLE (R82): both readings are written together; no other register changes, and `CALV = 0` is no fault. -/
def execSample (uT uP : Raw24) (s : State) : Host.Outcome State Fault Refusal :=
  .next (respond .ok [] (s.setRegs
    (s.regs.setReadings (sampledTmp s.params s.regs.cal uT) (sampledPrs s.params s.regs.cal uT uP))))

/-- The displayed tenths of a stored reading `x` (R90): with `n = 10 * x`, the nearest integer to `n / 65536`, ties away
from zero. -/
def dispTenths (x : Int) : Int :=
  if 0 ≤ 10 * x then (10 * x + 32768) / 65536 else -((-(10 * x) + 32768) / 65536)

end Machine
end Sys2Proof
end

