-- ==== Sys2Proof/Machine/Register.lean ====
section
/-! DEFINITION. Register read-out: the value of every readable register (R113) and RD (R114). -/

namespace Sys2Proof
namespace Machine

/-- The 48-bit value of `SCALE[i]`: `tc_48` of the entry where that is defined (R8, R113), else the free value of log
entry 2. -/
def scaleReadOut (p : Params) (i : Fin 8) : BitVec 48 :=
  if p.scale[i] < 2 ^ 47 then tc 48 p.scale[i] else Config.wideScaleReadOut i p.scale[i]

/-- The value RD returns for each register (R113): signed registers sign-extended, flags and constants
zero-extended, `DISP_T` and `DISP_P` computed at the time of the read (R15). -/
def readReg (p : Params) (r : Regs) : RegName → BitVec 48
  | .c0 => tc 48 r.cal.c0.toInt
  | .c1 => tc 48 r.cal.c1.toInt
  | .c00 => tc 48 r.cal.c00.toInt
  | .c10 => tc 48 r.cal.c10.toInt
  | .c01 => tc 48 r.cal.c01.toInt
  | .c11 => tc 48 r.cal.c11.toInt
  | .c20 => tc 48 r.cal.c20.toInt
  | .c21 => tc 48 r.cal.c21.toInt
  | .c30 => tc 48 r.cal.c30.toInt
  | .tmp => r.tmp
  | .prs => r.prs
  | .dispT => tc 48 (dispTenths r.tmp.toInt)
  | .dispP => tc 48 (dispTenths r.prs.toInt)
  | .upp => r.upp
  | .lop => r.lop
  | .upt => r.upt
  | .lot => r.lot
  | .status => statusWord r
  | .pollms => tc 48 Config.pollMs
  | .scale i => scaleReadOut p i

/-- RD (R114): a reserved number is `ILL`; else the register's 48-bit value. No register changes (R38). -/
def execRd (n : BitVec 8) (s : State) : Host.Outcome State Fault Refusal :=
  match regOf n with
  | none => raiseIll s
  | some reg => .next (respond .ok (patternBytes 6 (readReg s.params s.regs reg)) s)

end Machine
end Sys2Proof
end

