-- ==== Sys2Proof/Machine/Threshold.lean ====
section
/-! DEFINITION. The threshold monitor's operations: SETTHRP, SETTHRT, CMP, EVCLR (R97, R98, R102, R106). -/

namespace Sys2Proof
namespace Machine

/-- SETTHRP (R97): any two patterns are legal; the monitor is armed. -/
def execSetthrp (upper lower : Q3216) (s : State) : Host.Outcome State Fault Refusal :=
  .next (respond .ok [] (s.setRegs (s.regs.setPressure upper lower)))

/-- SETTHRT (R98): it arms whether or not the values are ever compared. -/
def execSetthrt (upper lower : Q3216) (s : State) : Host.Outcome State Fault Refusal :=
  .next (respond .ok [] (s.setRegs (s.regs.setTemperature upper lower)))

/-- CMP with `ARMED = 1`: `HIT`, `EDGE`, the flags, the pulses and the response of R102. -/
def compareArmed (s : State) : State :=
  let hit := condBits s.params s.regs
  let edge := edgeOf hit s.regs.cprev
  respondPulsing [cmpPayload edge hit] hit edge
    (s.setRegs (s.regs.setEvents hit (evfAfterCmp s.regs.evf edge)))

/-- CMP (R102); while `ARMED = 0` it writes nothing, pulses nothing and answers the payload `00` (R101). -/
def execCmp (s : State) : Host.Outcome State Fault Refusal :=
  if s.regs.armed then .next (compareArmed s) else .next (respond .ok [0x00] s)

/-- EVCLR (R106): the flags named in the mask are cleared; `CPREV` is not touched. The reserved bits 7:4 of byte 1 are
refused by the decoder. -/
def execEvclr (m : BitVec 4) (s : State) : Host.Outcome State Fault Refusal :=
  .next (respond .ok [] (s.setRegs (s.regs.setEvf (evfAfterClear s.regs.evf m))))

end Machine
end Sys2Proof
end

