-- ==== Sys2Proof/Machine/Dispatch.lean ====
section
/-! DEFINITION. One arm per operation of the command set (R46). -/

namespace Sys2Proof
namespace Machine

def exec (i : Instr) (s : State) : Host.Outcome State Fault Refusal :=
  match i with
  | .dec w v => Sys2Proof.Machine.execDec w v s
  | .ldcal block => Sys2Proof.Machine.execLdcal block s
  | .sample uT uP => Sys2Proof.Machine.execSample uT uP s
  | .setthrp upper lower => Sys2Proof.Machine.execSetthrp upper lower s
  | .setthrt upper lower => Sys2Proof.Machine.execSetthrt upper lower s
  | .cmp => Sys2Proof.Machine.execCmp s
  | .evclr m => Sys2Proof.Machine.execEvclr m s
  | .rd n => Sys2Proof.Machine.execRd n s

end Machine
end Sys2Proof
end

