-- ==== Sys2Proof/Machine/Accept.lean ====
section
/-! DEFINITION. What the block does with one accepted frame (R39, R47). -/

namespace Sys2Proof
namespace Machine

/-- Execute one command packet: its operation if it is one of the set, else `ILL` (R47, R49, R58, R120). -/
def runPacket (packet : Packet) (s : State) : Host.Outcome State Fault Refusal :=
  match decode packet with
  | .ok i => exec i s
  | .error _ => raiseIll s

/-- The block takes one frame. While `rst_i` is asserted the state before it and after it is the reset state (R26); it is
answered all the same, since every packet is (R45, R132, R137). DEDUCED, log entry 15. -/
def acceptPacket (packet : Packet) (s : State) : Host.Outcome State Fault Refusal :=
  thenHold (runPacket packet (holdReset s))

/-- Deliver frames of one requester after the inputs already waiting (R40). -/
def State.deliver (s : State) (sender : Requester) (packets : List Packet) : State :=
  s.setInputs (s.inputs ++ packets.map (Input.command sender))

end Machine
end Sys2Proof
end

