-- ==== Sys2Proof/Machine/Step.lean ====
section
/-! DEFINITION. One step: the next input is taken (R39). -/

namespace Sys2Proof
namespace Machine

/-- One step takes the next input: a change of `rst_i` (R26, R140), or one whole command packet, executed before the next is looked at
(R37, R39). With no input waiting nothing happens. Who sent the packet plays no part (R23). -/
def step (s : State) : Host.Outcome State Fault Refusal :=
  match s.inputs with
  | [] => idle s
  | .reset :: rest => takeReset (s.setInputs rest)
  | .release :: rest => releaseReset (s.setInputs rest)
  | .command _ packet :: rest => acceptPacket packet (s.setInputs rest)

/-- The state with the packet of an opcode-table word as the next frame on `cmd`. Commands are not fetched from a
memory (R22, R43); this stands for the requester's sending that frame (log entry 8). -/
def State.withFetchWord (s : State) (nbits w : Nat) : State :=
  s.setInputs (.command .host (tableBytes nbits w) :: s.inputs)

end Machine
end Sys2Proof
end

