-- ==== Sys2Proof/Machine/Assembler.lean ====
section
/-! DEFINITION. The textual form of commands (R59): one command a line, `;` starts a comment, numbers are decimal or
`0x` hexadecimal. A line is a list of characters; the answer is the packet it stands for. -/

namespace Sys2Proof
namespace Machine

/-- Cut a line into its tokens: blanks and commas separate, `;` ends the line (R59). `acc` is the token being read,
last character first. -/
def tokensFrom (acc : List Char) : List Char → List (List Char)
  | [] => if acc.isEmpty then [] else [acc.reverse]
  | c :: cs =>
    let done := if acc.isEmpty then [] else [acc.reverse]
    if c = ';' then done
    else if c = ' ' ∨ c = '\t' ∨ c = ',' then done ++ tokensFrom [] cs
    else tokensFrom (c :: acc) cs

/-- The value of a decimal digit. -/
def decimalDigit (c : Char) : Option Nat :=
  if 48 ≤ c.toNat ∧ c.toNat ≤ 57 then some (c.toNat - 48) else none

/-- The value of a hexadecimal digit, either case. -/
def hexDigit (c : Char) : Option Nat :=
  if 65 ≤ c.toNat ∧ c.toNat ≤ 70 then some (c.toNat - 55)
  else if 97 ≤ c.toNat ∧ c.toNat ≤ 102 then some (c.toNat - 87)
  else decimalDigit c

/-- The number a digit string stands for, `acc` being what has been read already. -/
def digitsFrom (base : Nat) (digit : Char → Option Nat) (acc : Nat) : List Char → Option Nat
  | [] => some acc
  | c :: cs =>
    match digit c with
    | none => none
    | some d => digitsFrom base digit (acc * base + d) cs

/-- A digit string with at least one digit. -/
def readDigits (base : Nat) (digit : Char → Option Nat) (cs : List Char) : Option Nat :=
  if cs.isEmpty then none else digitsFrom base digit 0 cs

/-- A number, decimal or `0x` hexadecimal (R59). -/
def readNumber : List Char → Option Nat
  | '0' :: 'x' :: ds => readDigits 16 hexDigit ds
  | ds => readDigits 10 decimalDigit ds

/-- A number below `256 ^ n`, as its `n` packet bytes, most significant first (R33). -/
def readField (n : Nat) (cs : List Char) : Option (List Byte) :=
  match readNumber cs with
  | none => none
  | some v => if v < 256 ^ n then some (beBytes n v) else none

/-- A calibration byte: two hexadecimal digits without a prefix, as the example of R75 writes them, or a `0x` number.
DEDUCED, log entry 9. -/
def readCalByte : List Char → Option Byte
  | '0' :: 'x' :: ds => (readDigits 16 hexDigit ds).bind (fun v => if v < 256 then some (BitVec.ofNat 8 v) else none)
  | [a, b] => (readDigits 16 hexDigit [a, b]).map (BitVec.ofNat 8)
  | _ => none

/-- The fixed-point pattern of the decimal number `num / den`: `tc_48(floor(x * 65536))` (R59), where that is defined
(R8). -/
def thresholdPattern (num : Int) (den : Nat) : Option Q3216 :=
  let x := num * 65536 / den
  if -2 ^ 47 ≤ x ∧ x < 2 ^ 47 then some (tc 48 x) else none

/-- An unsigned decimal number with an optional fraction, as numerator and power of ten. -/
def readDecimal (cs : List Char) : Option (Nat × Nat) :=
  let whole := cs.takeWhile (fun c => c ≠ '.')
  let rest := cs.dropWhile (fun c => c ≠ '.')
  match rest with
  | [] => (readDigits 10 decimalDigit whole).map (fun v => (v, 1))
  | _ :: frac =>
    match readDigits 10 decimalDigit whole, readDigits 10 decimalDigit frac with
    | some v, some f => some (v * 10 ^ frac.length + f, 10 ^ frac.length)
    | _, _ => none

/-- A threshold operand: a `0x` number is the 48-bit pattern itself, a decimal number its fixed-point pattern (R59). -/
def readThreshold : List Char → Option (List Byte)
  | '0' :: 'x' :: ds => readField 6 ('0' :: 'x' :: ds)
  | '-' :: ds => (readDecimal ds).bind (fun v => (thresholdPattern (-(v.1 : Int)) v.2).map (fun x => beBytes 6 x.toNat))
  | ds => (readDecimal ds).bind (fun v => (thresholdPattern v.1 v.2).map (fun x => beBytes 6 x.toNat))

/-- The register names of R113 with their numbers. -/
def registerNames : List (String × Byte) :=
  [("C0", 0x00), ("C1", 0x01), ("C00", 0x02), ("C10", 0x03), ("C01", 0x04), ("C11", 0x05), ("C20", 0x06),
   ("C21", 0x07), ("C30", 0x08), ("TMP", 0x10), ("PRS", 0x11), ("DISP_T", 0x12), ("DISP_P", 0x13),
   ("UPP", 0x20), ("LOP", 0x21), ("UPT", 0x22), ("LOT", 0x23), ("STATUS", 0x30), ("POLLMS", 0x31)]
  ++ [("SCALE0", 0x40), ("SCALE1", 0x41), ("SCALE2", 0x42), ("SCALE3", 0x43), ("SCALE4", 0x44),
   ("SCALE5", 0x45), ("SCALE6", 0x46), ("SCALE7", 0x47)]

/-- The operand of RD: a register name of R113, or a number (R59). -/
def readRegister (cs : List Char) : Option (List Byte) :=
  match registerNames.lookup (String.ofList cs) with
  | some n => some [n]
  | none => readField 1 cs

/-- All operands, or none. -/
def allSome {α : Type} : List (Option α) → Option (List α)
  | [] => some []
  | none :: _ => none
  | some a :: rest => (allSome rest).map (fun as => a :: as)

/-- The packet of one command, its line already cut into tokens (the table of R59). -/
def assembleTokens : List (List Char) → Option Packet
  | [['D', 'E', 'C'], w, v] => (allSome [readField 1 w, readField 3 v]).map (fun a => Opcode.dec.code :: a.flatten)
  | ['L', 'D', 'C', 'A', 'L'] :: bytes =>
    if bytes.length = 18 then (allSome (bytes.map readCalByte)).map (fun a => Opcode.ldcal.code :: a) else none
  | [['S', 'A', 'M', 'P', 'L', 'E'], t, p] =>
    (allSome [readField 3 t, readField 3 p]).map (fun a => Opcode.sample.code :: a.flatten)
  | [['S', 'E', 'T', 'T', 'H', 'R', 'P'], u, l] =>
    (allSome [readThreshold u, readThreshold l]).map (fun a => Opcode.setthrp.code :: a.flatten)
  | [['S', 'E', 'T', 'T', 'H', 'R', 'T'], u, l] =>
    (allSome [readThreshold u, readThreshold l]).map (fun a => Opcode.setthrt.code :: a.flatten)
  | [['C', 'M', 'P']] => some [Opcode.cmp.code]
  | [['E', 'V', 'C', 'L', 'R'], m] => (readField 1 m).map (fun a => Opcode.evclr.code :: a)
  | [['R', 'D'], n] => (readRegister n).map (fun a => Opcode.rd.code :: a)
  | _ => none

/-- One line of text: no packet for a blank line or a comment, one for a command, `none` for a line that is neither
(R59). -/
def assembleLine (line : List Char) : Option (List Packet) :=
  match tokensFrom [] line with
  | [] => some []
  | toks => (assembleTokens toks).map (fun p => [p])

end Machine
end Sys2Proof
end

