-- ==== Sys2Proof/Machine/Environment.lean ====
section
/-! DEFINITION. What the environment owes the block: the sensor register map (R135), the boot and sampling sequences
(R143, R146), the seven pseudo-operations built from them (R60), the poll loop's commands (R109), the merges of the
two requesters (R40), and the event sink's order (R127). The bus, the sensor and the scheduler themselves are outside the
block (R4); the bytes a bus read returns are arguments here, so a claim holds for all of them. -/

namespace Sys2Proof
namespace Machine

/-! ## The sensor's register map -/

/-- The seven sensor registers the driver uses (R135). -/
inductive SensorReg
  | pressureConfig | temperatureConfig | interruptConfig | operatingMode | calibrationBlock
  | temperatureData | pressureData
  deriving DecidableEq, Repr

/-- The register's address in the sensor's 8-bit space (R135). -/
def SensorReg.address : SensorReg → Byte
  | .pressureConfig => 0x06
  | .temperatureConfig => 0x07
  | .interruptConfig => 0x09
  | .operatingMode => 0x08
  | .calibrationBlock => 0x10
  | .temperatureData => 0x03
  | .pressureData => 0x00

/-- The bytes the driver writes to the register (R135). -/
def SensorReg.written : SensorReg → List Byte
  | .pressureConfig => [0x71]
  | .temperatureConfig => [0xF0]
  | .interruptConfig => [0x00]
  | .operatingMode => [0x07, 0x02, 0x01]
  | .calibrationBlock => []
  | .temperatureData => []
  | .pressureData => []

/-! ## Actions of the environment -/

/-- One action in a sequence of the environment (R60): a bus action, the settling delay, or a command to the block. A
read carries the bytes the bus returned, in arrival order. -/
inductive EnvAction
  /-- `BUSW reg, value`: a single-byte register write. -/
  | busWrite (reg value : Byte)
  /-- `BUSPTR reg`: a register-address write. -/
  | busPtr (reg : Byte)
  /-- `BUSRD n -> …`: a read of consecutive bytes. -/
  | busRead (bytes : List Byte)
  /-- `WAIT`: the settling delay, an ordering and yield point with no duration (R144). -/
  | wait
  /-- `WAIT POLLMS`: the pause between poll cycles, with no duration (R109, R156). -/
  | pollPause
  /-- A command packet to the block. -/
  | issue (packet : Packet)
  deriving DecidableEq, Repr

/-- The command packets of a sequence, in order. -/
def commandsOf : List EnvAction → List Packet
  | [] => []
  | .issue p :: rest => p :: commandsOf rest
  | _ :: rest => commandsOf rest

/-- An action that is a transaction on the sensor's bus. -/
def EnvAction.isBus : EnvAction → Bool
  | .busWrite _ _ => true
  | .busPtr _ => true
  | .busRead _ => true
  | .wait => false
  | .pollPause => false
  | .issue _ => false

/-- The bytes read from the bus, in arrival order. -/
def bytesRead : List EnvAction → List Byte
  | [] => []
  | .busRead bs :: rest => bs ++ bytesRead rest
  | _ :: rest => bytesRead rest

/-- The 18 bytes of a calibration block in burst-read order (R34, R51). -/
def blockBytes (block : CalBlock) : List Byte := beBytes 18 block.toNat

/-- `INIT` (R60, R143): four configuration writes, each followed by the settling delay, then the 18-byte burst read and
LDCAL of the bytes in the order they arrived (R51). -/
def initSequence (block : CalBlock) : List EnvAction :=
  [.busWrite SensorReg.pressureConfig.address 0x71, .wait,
   .busWrite SensorReg.temperatureConfig.address 0xF0, .wait,
   .busWrite SensorReg.interruptConfig.address 0x00, .wait,
   .busWrite SensorReg.operatingMode.address 0x07, .wait,
   .busPtr SensorReg.calibrationBlock.address, .busRead (blockBytes block),
   .issue (Opcode.ldcal.code :: blockBytes block)]

/-- `READDATA` (R60, R146): temperature strictly before pressure (R148); per channel a mode write, a pointer write and
three single-byte reads; then SAMPLE and the settling delay. -/
def readDataSequence (t2 t1 t0 p2 p1 p0 : Byte) : List EnvAction :=
  [.busWrite SensorReg.operatingMode.address 0x02,
   .busPtr SensorReg.temperatureData.address, .busRead [t2], .busRead [t1], .busRead [t0],
   .busWrite SensorReg.operatingMode.address 0x01,
   .busPtr SensorReg.pressureData.address, .busRead [p2], .busRead [p1], .busRead [p0],
   .issue [Opcode.sample.code, t2, t1, t0, p2, p1, p0],
   .wait]

/-- `GETP` (R60, R115): `READDATA; RD DISP_P`. -/
def getPressureSequence (t2 t1 t0 p2 p1 p0 : Byte) : List EnvAction :=
  readDataSequence t2 t1 t0 p2 p1 p0 ++ [.issue [Opcode.rd.code, 0x13]]

/-- `GETT` (R60, R115): `READDATA; RD DISP_T`. -/
def getTemperatureSequence (t2 t1 t0 p2 p1 p0 : Byte) : List EnvAction :=
  readDataSequence t2 t1 t0 p2 p1 p0 ++ [.issue [Opcode.rd.code, 0x12]]

/-- `CFGP upper, lower` (R60); starting the poll loop is the environment's reaction to `armed_o` (R27). -/
def configurePressureSequence (upper lower : Q3216) : List EnvAction :=
  [.issue (encode (.setthrp upper lower))]

/-- `CFGT upper, lower` (R60). -/
def configureTemperatureSequence (upper lower : Q3216) : List EnvAction :=
  [.issue (encode (.setthrt upper lower))]

/-- `POLLCYCLE` (R60, R109): `READDATA; CMP; WAIT POLLMS`. -/
def pollCycleSequence (t2 t1 t0 p2 p1 p0 : Byte) : List EnvAction :=
  readDataSequence t2 t1 t0 p2 p1 p0 ++ [.issue [Opcode.cmp.code], .pollPause]

/-- The six bytes one sampling reads from the bus, temperature first (R41). -/
structure RawBytes where
  t2 : Byte
  t1 : Byte
  t0 : Byte
  p2 : Byte
  p1 : Byte
  p0 : Byte
  deriving DecidableEq, Repr

/-- The MONITOR's poll loop (R109): `POLLCYCLE` for each sampling in turn, and nothing else (R131). The loop has no end
of its own; a list of samplings is any finite part of it. -/
def pollLoop : List RawBytes → List EnvAction
  | [] => []
  | b :: rest => pollCycleSequence b.t2 b.t1 b.t0 b.p2 b.p1 b.p0 ++ pollLoop rest

/-- `armed_o` rises: the environment then starts its one poll loop (R27, R42). -/
def armedRises (before after : State) : Bool := !before.armedO && after.armedO

/-! ## The two requesters -/

/-- The frames one requester sends, in their order. -/
def framesOf (who : Requester) : List Input → List Packet
  | [] => []
  | .reset :: rest => framesOf who rest
  | .release :: rest => framesOf who rest
  | .command sender p :: rest => if sender = who then p :: framesOf who rest else framesOf who rest

/-- A legal merge (R40): each requester's frames stand in its own order, and between the two no order is fixed. -/
def IsMerge (host monitor : List Packet) (merged : List Input) : Prop :=
  framesOf .host merged = host ∧ framesOf .monitor merged = monitor

/-! ## The event sink -/

/-- The four event identifiers (R124). -/
inductive Event
  | pressureHigh | pressureLow | temperatureHigh | temperatureLow
  deriving DecidableEq, Repr

/-- The event's bit in every 4-bit vector (R26). -/
def Event.bit : Event → Nat
  | .pressureHigh => 0
  | .pressureLow => 1
  | .temperatureHigh => 2
  | .temperatureLow => 3

/-- The order in which a sink that serialises the simultaneous pulses of one CMP runs the handlers (R127). -/
def Event.inOrder : List Event := [.pressureHigh, .pressureLow, .temperatureHigh, .temperatureLow]

/-- The events a pulse vector raises, in that order: one raise per pulse, no data with it (R104, R126, R127). -/
def raisedEvents (pulses : BitVec 4) : List Event :=
  Event.inOrder.filter (fun e => pulses.getLsbD e.bit)

end Machine
end Sys2Proof
end

