-- ==== Sys2Proof/Machine/Agents.lean ====
section
/-! DEFINITION. The three agents of R131 together: what HOST and MONITOR may send and when, and the platform they make
with the block. The block itself takes any packet from anyone (R132); a run of the platform is one in which the two
requesters keep to R131. Finite runs come first, executions without end and fairness (R156) last. One move is one packet, since the sequences interleave at packet granularity (R40, R131). -/

namespace Sys2Proof
namespace Machine

/-! ## HOST -/

/-- The two getters (R115). -/
inductive Getter
  | pressure
  | temperature
  deriving DecidableEq, Repr

/-- The register a getter reads: `DISP_P` or `DISP_T` (R60, R113). -/
def Getter.register : Getter → BitVec 8
  | .pressure => 0x13
  | .temperature => 0x12

/-- Where HOST stands since the last reset. -/
structure HostAgent where
  /-- `INIT` has been issued; it is issued once (R131, R142). -/
  initDone : Bool
  /-- The getters that have sampled and not read yet. HOST's own thread has one at most; a handler may issue another
  meanwhile (R129). -/
  pending : List Getter
  deriving DecidableEq, Repr

/-- HOST at the start: nothing issued. -/
def HostAgent.boot : HostAgent := { initDone := false, pending := [] }

/-- What HOST can do next (R131). A getter is two moves, its sample and its read, since the MONITOR may come between
them (R40, R115). -/
inductive HostMove
  /-- `INIT`; without a block the calibration read has failed and no LDCAL is sent (R123, R154). -/
  | init (block : Option CalBlock)
  /-- The `READDATA` of a getter. -/
  | getterSample (g : Getter) (bytes : RawBytes)
  /-- The `RD` of a getter that has sampled. -/
  | getterRead (g : Getter)
  /-- `CFGP`. -/
  | configurePressure (upper lower : Q3216)
  /-- `CFGT`. -/
  | configureTemperature (upper lower : Q3216)
  /-- A plain RD. -/
  | rd (n : BitVec 8)
  /-- A DEC. -/
  | dec (w : BitVec 5) (v : Raw24)
  /-- An EVCLR. -/
  | evclr (m : BitVec 4)
  deriving DecidableEq, Repr

/-- The commands of a move, those of its sequence (R60). -/
def HostMove.commands : HostMove → List Packet
  | .init none => []
  | .init (some block) => commandsOf (initSequence block)
  | .getterSample _ b => commandsOf (readDataSequence b.t2 b.t1 b.t0 b.p2 b.p1 b.p0)
  | .getterRead g => [encode (.rd g.register)]
  | .configurePressure upper lower => commandsOf (configurePressureSequence upper lower)
  | .configureTemperature upper lower => commandsOf (configureTemperatureSequence upper lower)
  | .rd n => [encode (.rd n)]
  | .dec w v => [encode (.dec w v)]
  | .evclr m => [encode (.evclr m)]

/-- Where HOST stands after a move, if it may make it: `INIT` once, everything else after it (R131), but threshold
configuration at any time (R142 (4)). DEDUCED, log entry 13. -/
def HostAgent.after (h : HostAgent) : HostMove → Option HostAgent
  | .init _ => if h.initDone then none else some { h with initDone := true }
  | .getterSample g _ => if h.initDone then some { h with pending := h.pending ++ [g] } else none
  | .getterRead g => if h.initDone ∧ g ∈ h.pending then some { h with pending := h.pending.erase g } else none
  | .configurePressure _ _ => some h
  | .configureTemperature _ _ => some h
  | .rd _ => if h.initDone then some h else none
  | .dec _ _ => if h.initDone then some h else none
  | .evclr _ => if h.initDone then some h else none

/-! ## MONITOR -/

/-- Where MONITOR stands: it exists from the rise of `armed_o` until reset (R131). -/
inductive MonitorPhase
  /-- There is no background task: the block is Idle (R96). -/
  | absent
  /-- Its next command is the SAMPLE of a `POLLCYCLE` (R60, R109). -/
  | sampling
  /-- Its next command is the CMP of that cycle. -/
  | comparing
  deriving DecidableEq, Repr

/-- What MONITOR can send: the two commands of `POLLCYCLE`, and nothing else (R131). A cycle whose bus transfer has
visibly failed sends nothing and is no move (R123). -/
inductive MonitorMove
  | sample (bytes : RawBytes)
  | compare
  deriving DecidableEq, Repr

/-- The command of a move. -/
def MonitorMove.commands : MonitorMove → List Packet
  | .sample b => commandsOf (readDataSequence b.t2 b.t1 b.t0 b.p2 b.p1 b.p0)
  | .compare => [encode .cmp]

/-- Where MONITOR stands after a move, if it may make it: SAMPLE, then CMP, without end (R109, R151). -/
def MonitorPhase.after : MonitorPhase → MonitorMove → Option MonitorPhase
  | .sampling, .sample _ => some .comparing
  | .comparing, .compare => some .sampling
  | .absent, .sample _ => none
  | .absent, .compare => none
  | .sampling, .compare => none
  | .comparing, .sample _ => none

/-- The environment starts the poll loop at the 0-to-1 change of `armed_o`, and only then (R27, R42, R60). -/
def MonitorPhase.watch (m : MonitorPhase) (before after : State) : MonitorPhase :=
  if armedRises before after then .sampling else m

/-! ## The platform -/

/-- The block with its two requesters. -/
structure Platform where
  block : State
  host : HostAgent
  monitor : MonitorPhase
  deriving DecidableEq, Repr

/-- The platform after reset: HOST has issued nothing and there is no MONITOR. -/
def Platform.reset : Platform := { block := State.reset, host := HostAgent.boot, monitor := .absent }

/-- Which agent acts next is not fixed (R40); a reset ends MONITOR and sets HOST back to its start (R110, R140). -/
inductive Move
  | reset
  | host (m : HostMove)
  | monitor (m : MonitorMove)
  deriving DecidableEq, Repr

/-- What a move puts at the block's ports. A reset is asserted and released with no packet between, since the requesters
start after it (R142 (1), log entry 13). -/
def Move.inputs : Move → List Input
  | .reset => [.reset, .release]
  | .host m => m.commands.map (Input.command .host)
  | .monitor m => m.commands.map (Input.command .monitor)

/-- The inputs of a sequence of moves: the traffic at the block's ports. -/
def traffic : List Move → List Input
  | [] => []
  | m :: ms => m.inputs ++ traffic ms

/-- The block takes one input at once. -/
def State.take (s : State) (i : Input) : Option State :=
  match step (s.setInputs (i :: s.inputs)) with
  | .next t => some t
  | .fault _ => none
  | .refused _ => none

/-- The block takes inputs one after the other. -/
def State.takeAll : List Input → State → Option State
  | [], s => some s
  | i :: rest, s => (s.take i).bind (State.takeAll rest)

/-- One move: the agent's turn must allow it, and the block takes its packet. -/
def Platform.move (p : Platform) (m : Move) : Option Platform :=
  (State.takeAll m.inputs p.block).bind (fun block =>
    match m with
    | .reset => some { block := block, host := HostAgent.boot, monitor := .absent }
    | .host k => (p.host.after k).map (fun host =>
        { block := block, host := host, monitor := p.monitor.watch p.block block })
    | .monitor k => (p.monitor.after k).map (fun monitor =>
        { block := block, host := p.host, monitor := monitor }))

/-- A run of the platform. -/
def Platform.run : List Move → Platform → Option Platform
  | [], p => some p
  | m :: ms, p => (p.move m).bind (Platform.run ms)

/-! ## Runs without end, under fairness (R156)

An execution is no state of anything: it is a way to speak of a whole unbounded run, so its functions stand here and in
claims only. -/

/-- An unbounded execution of the platform: at each time one move, or none (the requesters are in a WAIT, a pause or on the
bus, none of which has a length, R133, R144, R156). -/
def IsExecution (states : Nat → Platform) (moves : Nat → Option Move) : Prop :=
  ∀ n, match moves n with
    | none => states (n + 1) = states n
    | some m => (states n).move m = some (states (n + 1))

/-- The moves made before a time, in order. -/
def movesBefore (moves : Nat → Option Move) : Nat → List Move
  | 0 => []
  | n + 1 => movesBefore moves n ++ (moves n).toList

/-- Fairness to MONITOR (R109, R156): whenever it exists, it makes a move at that time or later, unless a reset ends it
first. It always has one it may make. No time is set for it. DEDUCED, log entry 14. -/
def MonitorFair (states : Nat → Platform) (moves : Nat → Option Move) : Prop :=
  ∀ n, (states n).monitor ≠ .absent → ∃ k, n ≤ k ∧ (moves k = some .reset ∨ ∃ m, moves k = some (.monitor m))

end Machine
end Sys2Proof
end

