-- ==== Sys2Proof/Machine/Exact.lean ====
section
/-! DEFINITION. The evaluator and the display rounding as the spec first states them, on exact rationals (R83 to R85,
R89), and the magnitude bounds of R91. The machine itself runs the integer forms of Machine/Sample.lean. -/

namespace Sys2Proof
namespace Machine

/-- `t = rawT / KT` or `p = rawP / KP`: exact division of numbers (R83). -/
def normalised (raw : Int) (k : Nat) : ℚ := (raw : ℚ) / (k : ℚ)

/-- `Texact = c0 * (1/2) + c1 * t` (R84). -/
def tExact (kt : Nat) (c : Coeffs) (rawT : Int) : ℚ :=
  c.c0.toInt * (1 / 2) + c.c1.toInt * normalised rawT kt

/-- `Pexact = c00 + p*(c10 + p*(c20 + p*c30)) + t*c01 + t*p*(c11 + p*c21)`, grouped as R85 writes it. -/
def pExact (kt kp : Nat) (c : Coeffs) (rawT rawP : Int) : ℚ :=
  let t := normalised rawT kt
  let p := normalised rawP kp
  c.c00.toInt + p * (c.c10.toInt + p * (c.c20.toInt + p * c.c30.toInt)) + t * c.c01.toInt
    + t * p * (c.c11.toInt + p * c.c21.toInt)

/-- The bound of R91 on `|Texact|`: `1024 + 2048 * b` with `b = 2^23 / KT`. -/
def tBound (kt : Nat) : ℚ := 1024 + 2048 * normalised (2 ^ 23) kt

/-- The bound of R91 on `|Pexact|`, with `a = 2^23 / KP` and `b = 2^23 / KT`. -/
def pBound (kt kp : Nat) : ℚ :=
  let a := normalised (2 ^ 23) kp
  let b := normalised (2 ^ 23) kt
  2 ^ 19 + 2 ^ 19 * a + 2 ^ 15 * a ^ 2 + 2 ^ 15 * a ^ 3 + 2 ^ 15 * b + 2 ^ 15 * a * b + 2 ^ 15 * a ^ 2 * b

/-- The number a Q32.16 register stands for: `sext_48(X) / 65536` (R13). -/
def q3216Value (x : Q3216) : ℚ := (x.toInt : ℚ) / 65536

/-- `rnd10(q)` (R89): the integer nearest to `10*q`, ties away from zero. -/
def rnd10 (q : ℚ) : Int :=
  if 0 ≤ q then ⌊10 * q + 1 / 2⌋ else -⌊-10 * q + 1 / 2⌋

/-- The number a getter returns for a displayed `DISP`: `DISP / 10` (R90, R115). -/
def getterValue (disp : Int) : ℚ := (disp : ℚ) / 10

/-- The decimal text of a displayed value (R116): the sign of `d` if negative, `|d| div 10`, a point, `|d| mod 10`. -/
def displayText (d : Int) : String :=
  (if d < 0 then "-" else "") ++ toString (d.natAbs / 10) ++ "." ++ toString (d.natAbs % 10)

end Machine
end Sys2Proof
end

