-- ==== Sys2Proof/Safety.lean ====
section
/-! DEFINITION. What holds of every state a run can reach (R25, R48, R61), and what a safe step is. -/

namespace Sys2Proof
namespace Safety

open Sys2Proof.Machine

/-- A step that neither faults nor refuses. "every byte sequence has a defined response" (R132). -/
def Completes (o : Host.Outcome State Fault Refusal) : Prop := ∃ t, o = .next t

/-- A reading register holds the floor of a number within the bound `B` of R91, and its magnitude is below 2^47 (R25). -/
def WithinBound (x : Q3216) (B : ℚ) : Prop :=
  -(B * 65536) - 1 < (x.toInt : ℚ) ∧ (x.toInt : ℚ) ≤ B * 65536 ∧ |x.toInt| < 2 ^ 47

/-- The register invariant of R25: readings within the bounds of R91, no coefficient while `CALV = 0`, no event state
while `ARMED = 0`. With `CALV = 0` the readings are zero too (R12). -/
structure RegsInv (p : Params) (r : Regs) : Prop where
  tmp_bound : WithinBound r.tmp (tBound p.kt)
  prs_bound : WithinBound r.prs (pBound p.kt p.kp)
  cal_zero : r.calv = false → r.cal = Coeffs.zero
  readings_zero : r.calv = false → r.tmp = 0 ∧ r.prs = 0
  events_zero : r.armed = false → r.cprev = 0 ∧ r.evf = 0

/-- An output the block may give (R48, R61, R102): status `01` and `02` stand alone; status `00` carries 0, 1, 4 or 6
payload bytes; a pulse comes only with the one-byte payload of CMP, and `EDGE` only where `HIT` is. -/
def LegalOutput (o : Output) : Bool :=
  match o.rsp with
  | [] => false
  | st :: payload =>
    ((decide (st = 0x00) && (payload.length == 0 || payload.length == 1 || payload.length == 4 || payload.length == 6))
      || (decide (st = 0x01) && payload.length == 0)
      || (decide (st = 0x02) && payload.length == 0))
    && (decide (o.hit = 0) || (decide (st = 0x00) && payload.length == 1))
    && decide (o.edge &&& ~~~o.hit = 0)

/-- The packets that are no legal command, in the bytes of R58 and in its order (a) to (g). -/
inductive IllegalPacket : Packet → Prop
  /-- (a) Empty packet. -/
  | empty : IllegalPacket []
  /-- (b) Opcode `0x00` or `0x09` to `0xFF`. -/
  | reservedOpcode (b : Byte) (rest : List Byte) : b.toNat = 0 ∨ 9 ≤ b.toNat → IllegalPacket (b :: rest)
  /-- (c) Legal opcode with a length other than R46's. -/
  | wrongLength (b : Byte) (rest : List Byte) (len : Nat) :
      (b.toNat, len) ∈ [(1, 5), (2, 19), (3, 7), (4, 13), (5, 13), (6, 1), (7, 2), (8, 2)] →
      (b :: rest).length ≠ len → IllegalPacket (b :: rest)
  /-- (d) DEC with byte 1 bits 7:5 not zero. -/
  | decReserved (b1 v2 v1 v0 : Byte) : b1.toNat / 32 ≠ 0 → IllegalPacket [0x01, b1, v2, v1, v0]
  /-- (d) DEC with `w = 0` or `w > 24`. -/
  | decWidth (b1 v2 v1 v0 : Byte) : b1.toNat % 32 = 0 ∨ 24 < b1.toNat % 32 → IllegalPacket [0x01, b1, v2, v1, v0]
  /-- (e) DEC with `v >= 2^w`. -/
  | decWide (b1 v2 v1 v0 : Byte) : 2 ^ (b1.toNat % 32) ≤ v2.toNat * 65536 + v1.toNat * 256 + v0.toNat →
      IllegalPacket [0x01, b1, v2, v1, v0]
  /-- (f) EVCLR with byte 1 bits 7:4 not zero. -/
  | evclrReserved (b1 : Byte) : b1.toNat / 16 ≠ 0 → IllegalPacket [0x07, b1]
  /-- (g) RD of a register number not listed in R113. -/
  | rdReserved (n : Byte) :
      (0x09 ≤ n.toNat ∧ n.toNat ≤ 0x0F) ∨ (0x14 ≤ n.toNat ∧ n.toNat ≤ 0x1F) ∨ (0x24 ≤ n.toNat ∧ n.toNat ≤ 0x2F)
        ∨ (0x32 ≤ n.toNat ∧ n.toNat ≤ 0x3F) ∨ 0x48 ≤ n.toNat → IllegalPacket [0x08, n]

/-- A packet of the opcode with another number of bytes after the opcode byte is answered `ILL`, with no register changed
and no pulse (R47, R120): the one fault of every operation whose operands are all legal. -/
def WrongLengthAnswersIll (opcode : Byte) (operandBytes : Nat) : Prop :=
  ∀ (s : State) (args : List Byte), args.length ≠ operandBytes →
    runPacket (opcode :: args) s = .next { s with out := s.out ++ [{ rsp := [0x01], hit := 0, edge := 0 }] }

/-- R113 in the spec's words: register number and 48-bit value, all but the eight SCALE entries. Signed registers are
sign-extended; the displayed tenths are the rounding of R89 applied to the stored value. -/
def registerTable (r : Regs) : List (BitVec 8 × BitVec 48) :=
  [(0x00, r.cal.c0.signExtend 48), (0x01, r.cal.c1.signExtend 48), (0x02, r.cal.c00.signExtend 48),
   (0x03, r.cal.c10.signExtend 48), (0x04, r.cal.c01.signExtend 48), (0x05, r.cal.c11.signExtend 48),
   (0x06, r.cal.c20.signExtend 48), (0x07, r.cal.c21.signExtend 48), (0x08, r.cal.c30.signExtend 48),
   (0x10, r.tmp), (0x11, r.prs),
   (0x12, BitVec.ofInt 48 (rnd10 (q3216Value r.tmp))), (0x13, BitVec.ofInt 48 (rnd10 (q3216Value r.prs))),
   (0x20, r.upp), (0x21, r.lop), (0x22, r.upt), (0x23, r.lot),
   (0x30, BitVec.ofNat 48 (r.armed.toNat + 2 * r.calv.toNat + 16 * r.evf.toNat + 256 * r.cprev.toNat)),
   (0x31, 100)]

/-- The coefficients a run from `s` can have loaded: those it starts with, the reset value, or those of an LDCAL packet of
its inputs. -/
def LoadableCoeffs (s : State) (c : Coeffs) : Prop :=
  c = s.regs.cal ∨ c = Coeffs.zero ∨ ∃ who b, Input.command who (encode (.ldcal b)) ∈ s.inputs ∧ c = unpackCal b

/-- The sources a pair of readings may have in a run from `s` (R37): the start state, a reset, or ONE SAMPLE packet of
the run's inputs, both readings evaluated with the same coefficients. -/
def PairedReadings (s : State) (t p : Q3216) : Prop :=
  (t = s.regs.tmp ∧ p = s.regs.prs) ∨ (t = 0 ∧ p = 0)
    ∨ ∃ who uT uP c, Input.command who (encode (.sample uT uP)) ∈ s.inputs ∧ LoadableCoeffs s c
        ∧ t = sampledTmp s.params c uT ∧ p = sampledPrs s.params c uT uP

/-- What holds of the platform of R131 between two moves: every packet sent has been executed and `rst_i` is
released, MONITOR exists exactly while
`ARMED = 1` (R17, R96), and no calibration is loaded before HOST's `INIT` (R12). -/
structure PlatformInv (p : Platform) : Prop where
  taken : p.block.inputs = []
  released : p.block.rst = false
  monitor_armed : p.monitor = .absent ↔ p.block.regs.armed = false
  init_first : p.host.initDone = false → p.block.regs.calv = false

/-- A frame of LDCAL. -/
def isLdcal (packet : Packet) : Bool := decide (packet.head? = some Opcode.ldcal.code)

/-- R26: while `rst_i` is asserted the state is the reset state. -/
def HeldInReset (s : State) : Prop := s.rst = true → s.regs = Regs.reset

/-- The invariant of the whole machine. -/
structure Inv (s : State) : Prop where
  held : HeldInReset s
  regs : RegsInv s.params s.regs
  outputs : ∀ o ∈ s.out, LegalOutput o = true

end Safety
end Sys2Proof
end

