-- ==== Sys2Proof/Certificates/Slice0/Obligations.lean ====
section
/-! DEFINITION. The statements about the machine, each from a numbered rule of the spec. They state and prove nothing. -/

open Sys2Proof
open Sys2Proof.Machine
open Sys2Proof.Safety

/-! ## Reset -/

/-- R24: every element of the block's state after reset. -/
def Obligations.ResetLeavesTheListedValues : Prop :=
  State.reset.regs.cal.c0.toInt = 0 ∧ State.reset.regs.cal.c1.toInt = 0 ∧ State.reset.regs.cal.c00.toInt = 0
  ∧ State.reset.regs.cal.c10.toInt = 0 ∧ State.reset.regs.cal.c01.toInt = 0 ∧ State.reset.regs.cal.c11.toInt = 0
  ∧ State.reset.regs.cal.c20.toInt = 0 ∧ State.reset.regs.cal.c21.toInt = 0 ∧ State.reset.regs.cal.c30.toInt = 0
  ∧ State.reset.regs.calv = false ∧ State.reset.regs.tmp.toInt = 0 ∧ State.reset.regs.prs.toInt = 0
  ∧ State.reset.regs.upp = 0x000003FC0000#48 ∧ State.reset.regs.upp.toInt = 1020 * 65536
  ∧ State.reset.regs.lop = 0x000003DE0000#48 ∧ State.reset.regs.lop.toInt = 990 * 65536
  ∧ State.reset.regs.upt = 0x000000230000#48 ∧ State.reset.regs.upt.toInt = 35 * 65536
  ∧ State.reset.regs.lot = 0x000000050000#48 ∧ State.reset.regs.lot.toInt = 5 * 65536
  ∧ State.reset.regs.armed = false ∧ State.reset.regs.cprev = 0b0000#4 ∧ State.reset.regs.evf = 0b0000#4

/-- R26, R140, R141: the assertion of `rst_i` puts every element at its reset value, drives `armed_o` and `evf_o` low, and
gives no response and no pulse; while it is asserted every frame leaves the reset state and pulses nothing; its release
leaves the reset state. Two clauses are the model's reading: that a frame is answered while `rst_i` is asserted, as the
reset state answers it (DEDUCED, log entry 15), and that the other inputs, the parameters and the past outputs stay
(DESIGN CHOICE, log entries 4, 5 and 6). -/
def Obligations.ResetInputRestoresTheResetState : Prop :=
  ∀ (s : State) (rest : List Input),
    (s.inputs = .reset :: rest →
      step s = .next { s with regs := State.reset.regs, rst := true, inputs := rest }
      ∧ State.armedO { s with regs := State.reset.regs, rst := true, inputs := rest } = false
      ∧ State.evfO { s with regs := State.reset.regs, rst := true, inputs := rest } = 0)
    ∧ (∀ (who : Requester) (p : Packet), s.rst = true → s.inputs = .command who p :: rest →
      ∃ (u : State) (o : Output),
        step s = .next { s with regs := State.reset.regs, inputs := rest, out := s.out ++ [o] }
        ∧ o.hit = 0 ∧ o.edge = 0
        ∧ runPacket p { s with regs := State.reset.regs, inputs := rest } = .next u ∧ u.out = s.out ++ [o])
    ∧ (s.inputs = .release :: rest →
      step s = .next { s with regs := if s.rst then State.reset.regs else s.regs, rst := false, inputs := rest })

/-! ## DEC and the decoder -/

/-- R68: DEC on legal operands answers the 32-bit two's-complement pattern of `dec(v, w)`, most significant byte first, and
changes no register; on any other operands, with reserved bits set, or at another length it is `ILL`. -/
def Obligations.DecAnswersTheSignedValue : Prop :=
  (∀ (s : State) (w : BitVec 5) (v : Raw24),
    (1 ≤ w.toNat → w.toNat ≤ 24 → v.toNat < 2 ^ w.toNat →
      ∃ r3 r2 r1 r0 : Byte,
        exec (.dec w v) s = .next { s with out := s.out ++ [{ rsp := [0x00, r3, r2, r1, r0], hit := 0, edge := 0 }] }
        ∧ ((r3.toNat * 2 ^ 24 + r2.toNat * 2 ^ 16 + r1.toNat * 2 ^ 8 + r0.toNat : Nat) : Int)
          = (if v.toNat.testBit (w.toNat - 1) then (v.toNat : Int) - 2 ^ w.toNat else v.toNat) % 2 ^ 32)
    ∧ (w.toNat = 0 ∨ 24 < w.toNat ∨ 2 ^ w.toNat ≤ v.toNat →
      exec (.dec w v) s = .next { s with out := s.out ++ [{ rsp := [0x01], hit := 0, edge := 0 }] })
    ∧ ∀ b1 v2 v1 v0 : Byte, b1.toNat / 32 ≠ 0 →
      runPacket [0x01, b1, v2, v1, v0] s = .next { s with out := s.out ++ [{ rsp := [0x01], hit := 0, edge := 0 }] })
  ∧ WrongLengthAnswersIll 0x01 4

/-- R66 (a) to (f): range, round trip, bijection with inverse `tc_w`, sign extension, and the named values of the decoder
function, at every width. -/
def Obligations.DecoderFunctionLaws : Prop :=
  ∀ w : Nat, 1 ≤ w →
    (∀ v : Nat, v < 2 ^ w →
      (-2 ^ (w - 1) ≤ dec v w ∧ dec v w ≤ 2 ^ (w - 1) - 1)
      ∧ dec v w % 2 ^ w = v
      ∧ (dec v w = v ↔ v < 2 ^ (w - 1))
      ∧ ∀ n : Nat, w ≤ n → tc n (dec v w) = (BitVec.ofNat w v).signExtend n)
    ∧ (∀ x : Int, -2 ^ (w - 1) ≤ x → x ≤ 2 ^ (w - 1) - 1 →
      (tc w x).toNat < 2 ^ w ∧ dec (tc w x).toNat w = x ∧ ∀ v : Nat, v < 2 ^ w → dec v w = x → v = (tc w x).toNat)
    ∧ dec (2 ^ (w - 1)) w = -2 ^ (w - 1) ∧ dec (2 ^ w - 1) w = -1 ∧ dec 0 w = 0

/-- R69: DEC gives the same output in every state and writes nothing. -/
def Obligations.DecIsIndependentOfState : Prop :=
  ∀ (w : BitVec 5) (v : Raw24), ∃ o : Output, ∀ s : State,
    exec (.dec w v) s = .next { s with out := s.out ++ [o] }

/-! ## LDCAL -/

/-- R74, R75, R76: with `CALV = 0` LDCAL loads the nine coefficients, each the decoded field of the extraction table over
the packet's bytes (packet byte `k + 1` is `byte k`), and sets `CALV`; with `CALV = 1` it answers `LOCKED`. Nothing else
changes in either case. At another length it is `ILL`. -/
def Obligations.LdcalLoadsTheExtractedCoefficients : Prop :=
  (∀ (s : State) (block : CalBlock),
    let b : Nat → Nat := fun k => ((encode (.ldcal block)).getD (k + 1) 0).toNat
    (s.regs.calv = false → ∃ c : Coeffs,
      exec (.ldcal block) s = .next { s with
        regs := { s.regs with cal := c, calv := true }
        out := s.out ++ [{ rsp := [0x00], hit := 0, edge := 0 }] }
      ∧ c.c0.toInt = dec ((b 0 <<< 4) ||| (b 1 >>> 4)) 12
      ∧ c.c1.toInt = dec (((b 1 &&& 0x0F) <<< 8) ||| b 2) 12
      ∧ c.c00.toInt = dec ((b 3 <<< 12) ||| (b 4 <<< 4) ||| (b 5 >>> 4)) 20
      ∧ c.c10.toInt = dec (((b 5 &&& 0x0F) <<< 16) ||| (b 6 <<< 8) ||| b 7) 20
      ∧ c.c01.toInt = dec ((b 8 <<< 8) ||| b 9) 16
      ∧ c.c11.toInt = dec ((b 10 <<< 8) ||| b 11) 16
      ∧ c.c20.toInt = dec ((b 12 <<< 8) ||| b 13) 16
      ∧ c.c21.toInt = dec ((b 14 <<< 8) ||| b 15) 16
      ∧ c.c30.toInt = dec ((b 16 <<< 8) ||| b 17) 16)
    ∧ (s.regs.calv = true →
      exec (.ldcal block) s = .next { s with out := s.out ++ [{ rsp := [0x02], hit := 0, edge := 0 }] }))
  ∧ WrongLengthAnswersIll 0x02 18

/-- R77: unpacking is a bijection from the 2^144 blocks to the coefficient tuples, with the concatenation of the nine
patterns, first byte most significant, as its inverse. -/
def Obligations.CalibrationUnpackingIsABijection : Prop :=
  (∀ c : Coeffs, unpackCal (c.c0 ++ c.c1 ++ c.c00 ++ c.c10 ++ c.c01 ++ c.c11 ++ c.c20 ++ c.c21 ++ c.c30) = c)
  ∧ (∀ b : CalBlock, let c := unpackCal b
      (c.c0 ++ c.c1 ++ c.c00 ++ c.c10 ++ c.c01 ++ c.c11 ++ c.c20 ++ c.c21 ++ c.c30 : CalBlock) = b)

/-! ## SAMPLE, the evaluator and the display -/

/-- R82 to R85 and R87: SAMPLE writes the floors to 2^-16 of the exact rational polynomials, for every legal
configuration, every coefficient and every raw code, without overflow, and changes nothing else. At another length it
is `ILL`. -/
def Obligations.SampleWritesFlooredExactReadings : Prop :=
  (∀ (s : State) (uT uP : Raw24),
    let rawT : Int := dec uT.toNat 24
    let rawP : Int := dec uP.toNat 24
    let t : ℚ := (rawT : ℚ) / (s.params.scale[0] : ℚ)
    let p : ℚ := (rawP : ℚ) / (s.params.scale[1] : ℚ)
    let c := s.regs.cal
    let tx : ℚ := (c.c0.toInt : ℚ) * (1 / 2) + c.c1.toInt * t
    let px : ℚ := (c.c00.toInt : ℚ) + p * (c.c10.toInt + p * (c.c20.toInt + p * c.c30.toInt))
      + t * c.c01.toInt + t * p * (c.c11.toInt + p * c.c21.toInt)
    ∃ tmp prs : Q3216,
      exec (.sample uT uP) s = .next { s with
        regs := { s.regs with tmp := tmp, prs := prs }
        out := s.out ++ [{ rsp := [0x00], hit := 0, edge := 0 }] }
      ∧ tmp.toInt = ⌊tx * 65536⌋ ∧ prs.toInt = ⌊px * 65536⌋)
  ∧ WrongLengthAnswersIll 0x03 6

/-- R86: the integer numerators over the positive denominators are the exact polynomials. -/
def Obligations.IntegerFormsEqualExactPolynomials : Prop :=
  ∀ (kt kp : Nat) (c : Coeffs) (rawT rawP : Int), 0 < kt → 0 < kp →
    0 < presDen kt kp
    ∧ (presNum kt kp c rawT rawP : ℚ) / (presDen kt kp : ℚ) = pExact kt kp c rawT rawP
    ∧ (tempNum kt c rawT : ℚ) / (2 * (kt : ℚ)) = tExact kt c rawT

/-- R87: the integers SAMPLE computes are the floors of the exact values, and lie less than 2^-16 below them. -/
def Obligations.IntegerFloorsAreWithinOneUnit : Prop :=
  ∀ (kt kp : Nat) (c : Coeffs) (rawT rawP : Int), 0 < kt → 0 < kp →
    tempFixed kt c rawT = ⌊tExact kt c rawT * 65536⌋
    ∧ presFixed kt kp c rawT rawP = ⌊pExact kt kp c rawT rawP * 65536⌋
    ∧ 0 ≤ tExact kt c rawT - tempFixed kt c rawT / 65536
    ∧ tExact kt c rawT - tempFixed kt c rawT / 65536 < 1 / 2 ^ 16
    ∧ 0 ≤ pExact kt kp c rawT rawP - presFixed kt kp c rawT rawP / 65536
    ∧ pExact kt kp c rawT rawP - presFixed kt kp c rawT rawP / 65536 < 1 / 2 ^ 16

/-- R91: the magnitude bounds, for any coefficients and any raw codes; below 2^31 for a legal configuration, where the
fixed-point integers stay inside 48 bits and the displayed tenths inside 2^35; and the default table's numbers. -/
def Obligations.ReadingsStayWithinTheBounds : Prop :=
  (∀ (kt kp : Nat) (c : Coeffs) (uT uP : Raw24), 0 < kt → 0 < kp →
    |tExact kt c (rawCode uT)| ≤ 1024 + 2048 * (2 ^ 23 / (kt : ℚ))
    ∧ |pExact kt kp c (rawCode uT) (rawCode uP)| ≤
      2 ^ 19 + 2 ^ 19 * (2 ^ 23 / (kp : ℚ)) + 2 ^ 15 * (2 ^ 23 / (kp : ℚ)) ^ 2 + 2 ^ 15 * (2 ^ 23 / (kp : ℚ)) ^ 3
        + 2 ^ 15 * (2 ^ 23 / (kt : ℚ)) + 2 ^ 15 * (2 ^ 23 / (kp : ℚ)) * (2 ^ 23 / (kt : ℚ))
        + 2 ^ 15 * (2 ^ 23 / (kp : ℚ)) ^ 2 * (2 ^ 23 / (kt : ℚ)))
  ∧ (∀ (p : Params) (c : Coeffs) (uT uP : Raw24),
    |tempFixed p.kt c (rawCode uT)| < 2 ^ 47 ∧ |presFixed p.kt p.kp c (rawCode uT) (rawCode uP)| < 2 ^ 47)
  ∧ (∀ x : Q3216, |dispTenths x.toInt| ≤ 10 * 2 ^ 31 ∧ |dispTenths x.toInt| < 2 ^ 35)
  ∧ tBound Params.default.kt ≤ 33792 ∧ pBound Params.default.kt Params.default.kp ≤ 27457156.75

/-- R6: a configuration is legal exactly when every entry is positive and the bounds of R91 are below 2^31; the default
table is legal. -/
def Obligations.LegalConfigurationsAreTheBoundedOnes : Prop :=
  (∀ scale : Vector Nat 8, Config.legalScale scale = true ↔
    (∀ i : Fin 8, 0 < scale[i]) ∧ tBound scale[0] < 2 ^ 31 ∧ pBound scale[0] scale[1] < 2 ^ 31)
  ∧ Config.legalScale Config.defaultScale = true

/-- R93 (a) to (d): the values SAMPLE writes depend on the six bytes, the coefficients and `KT`, `KP` only; zero
coefficients give zero readings and zero displays; zero raw codes give `c0 / 2` and `c00` exactly; and the temperature
is exact whenever `KT` divides `c1 * rawT * 32768`, with the default table whenever 16 divides `c1 * rawT`. -/
def Obligations.SampleLaws : Prop :=
  (∀ (s q : State) (uT uP : Raw24), s.regs.cal = q.regs.cal →
    s.params.scale[0] = q.params.scale[0] → s.params.scale[1] = q.params.scale[1] →
    ∃ t u, exec (.sample uT uP) s = .next t ∧ exec (.sample uT uP) q = .next u
      ∧ t.regs.tmp = u.regs.tmp ∧ t.regs.prs = u.regs.prs)
  ∧ (∀ (s : State) (uT uP : Raw24), s.regs.cal = Coeffs.zero →
    ∃ t, exec (.sample uT uP) s = .next t ∧ t.regs.tmp = 0 ∧ t.regs.prs = 0
      ∧ readReg t.params t.regs .dispT = 0 ∧ readReg t.params t.regs .dispP = 0)
  ∧ (∀ s : State, ∃ t, exec (.sample 0 0) s = .next t
    ∧ t.regs.tmp = tc 48 (s.regs.cal.c0.toInt * 32768) ∧ t.regs.prs = tc 48 (s.regs.cal.c00.toInt * 65536))
  ∧ (∀ (kt : Nat) (c : Coeffs) (rawT : Int), 0 < kt → (kt : Int) ∣ c.c1.toInt * rawT * 32768 →
    (tempFixed kt c rawT : ℚ) / 65536 = tExact kt c rawT)
  ∧ (∀ (c : Coeffs) (rawT : Int), 16 ∣ c.c1.toInt * rawT →
    (tempFixed Params.default.kt c rawT : ℚ) / 65536 = tExact Params.default.kt c rawT)

/-- R84, R85: temperature depends on no pressure code and only on c0, c1; pressure does not depend on c0, c1. -/
def Obligations.ChannelsDependOnTheirOwnCoefficients : Prop :=
  ∀ (kt kp : Nat) (c d : Coeffs) (rawT rawP : Int),
    (c.c0 = d.c0 → c.c1 = d.c1 → tempFixed kt c rawT = tempFixed kt d rawT)
    ∧ presFixed kt kp { c with c0 := d.c0, c1 := d.c1 } rawT rawP = presFixed kt kp c rawT rawP

/-- R89: `rnd10` is the nearest integer to `10 q`, a tie goes away from zero, negative arguments mirror positive ones,
and the spec's named values hold. -/
def Obligations.RoundingIsNearestTiesAway : Prop :=
  (∀ q : ℚ, |10 * q - rnd10 q| ≤ 1 / 2 ∧ (|10 * q - rnd10 q| = 1 / 2 → |10 * q| < |(rnd10 q : ℚ)|)
    ∧ rnd10 (-q) = -rnd10 q)
  ∧ rnd10 (25.04) = 250 ∧ rnd10 (25.05) = 251 ∧ rnd10 (-25.05) = -251 ∧ rnd10 (0.05) = 1
  ∧ rnd10 (-0.05) = -1 ∧ rnd10 0 = 0

/-- R90: the displayed tenths are `rnd10` of the stored value, and a tie occurs exactly at the odd multiples of 16384. -/
def Obligations.DisplayRoundsTheStoredValue : Prop :=
  (∀ x : Int, dispTenths x = rnd10 ((x : ℚ) / 65536))
  ∧ (∀ x : Int, (10 * x) % 65536 = 32768 ↔ ∃ k : Int, x = 16384 * (2 * k + 1))
  ∧ dispTenths 1654784 = 253 ∧ dispTenths (-1654784) = -253

/-! ## SETTHRP, SETTHRT -/

/-- R97: SETTHRP writes both pressure thresholds and arms, for any two patterns, and changes nothing else; at another
length it is `ILL`. -/
def Obligations.SetthrpWritesPressureThresholds : Prop :=
  (∀ (s : State) (upper lower : Q3216),
    exec (.setthrp upper lower) s = .next { s with
      regs := { s.regs with upp := upper, lop := lower, armed := true }
      out := s.out ++ [{ rsp := [0x00], hit := 0, edge := 0 }] })
  ∧ WrongLengthAnswersIll 0x04 12

/-- R98: SETTHRT writes both temperature thresholds and arms, and changes nothing else; with `PARITY` true the values it
writes are never compared; at another length it is `ILL`. -/
def Obligations.SetthrtWritesTemperatureThresholds : Prop :=
  (∀ (s : State) (upper lower : Q3216),
    exec (.setthrt upper lower) s = .next { s with
      regs := { s.regs with upt := upper, lot := lower, armed := true }
      out := s.out ++ [{ rsp := [0x00], hit := 0, edge := 0 }] })
  ∧ (∀ (p : Params) (r : Regs) (u l : Q3216), p.parity = true →
    condBits p { r with upt := u, lot := l } = condBits p r)
  ∧ WrongLengthAnswersIll 0x05 12

/-- R99: setting either pair of thresholds of an armed monitor leaves it armed, `armed_o` does not rise again, and only
the two thresholds change. -/
def Obligations.ArmingIsIdempotent : Prop :=
  ∀ (s : State) (upper lower : Q3216), s.regs.armed = true →
    (∃ t, exec (.setthrp upper lower) s = .next t ∧ t.regs = { s.regs with upp := upper, lop := lower }
      ∧ t.regs.armed = true ∧ armedRises s t = false)
    ∧ (∃ t, exec (.setthrt upper lower) s = .next t ∧ t.regs = { s.regs with upt := upper, lot := lower }
      ∧ t.regs.armed = true ∧ armedRises s t = false)

/-! ## CMP and EVCLR -/

/-- R100 to R102: while armed, CMP computes the four signed, inclusive conditions and their rising edges, replaces
`CPREV`, adds the edges to `EVF`, pulses both vectors and answers `(EDGE << 4) | HIT`; while not armed it answers `00` and
does nothing. No other register changes. At another length it is `ILL`. -/
def Obligations.CmpComparesAndRaises : Prop :=
  (∀ s : State,
    (s.regs.armed = false →
      exec .cmp s = .next { s with out := s.out ++ [{ rsp := [0x00, 0x00], hit := 0, edge := 0 }] })
    ∧ (s.regs.armed = true → ∃ (hit edge : BitVec 4) (x : Byte),
      exec .cmp s = .next { s with
        regs := { s.regs with cprev := hit, evf := s.regs.evf ||| edge }
        out := s.out ++ [{ rsp := [0x00, x], hit := hit, edge := edge }] }
      ∧ hit.getLsbD 0 = decide (s.regs.prs.toInt ≥ s.regs.upp.toInt)
      ∧ hit.getLsbD 1 = decide (s.regs.prs.toInt ≤ s.regs.lop.toInt)
      ∧ hit.getLsbD 2 = decide (s.regs.tmp.toInt ≥
          (if s.params.parity then s.regs.upp else s.regs.upt).toInt)
      ∧ hit.getLsbD 3 = decide (s.regs.tmp.toInt ≤
          (if s.params.parity then s.regs.lop else s.regs.lot).toInt)
      ∧ (∀ i : Nat, edge.getLsbD i = (hit.getLsbD i && !s.regs.cprev.getLsbD i))
      ∧ x.toNat = 16 * edge.toNat + hit.toNat))
  ∧ WrongLengthAnswersIll 0x06 0

/-- R103: a condition that holds at two successive CMPs of an armed block, and did not hold at the CMP before them, gives
its `HIT` at both, one `EDGE`, at the first, and one setting of `EVF`, whatever other commands run in between
(SAMPLE among them, as long as the condition holds again at the second CMP). With nothing in between the second CMP
gives the whole `HIT` of the first and no `EDGE` at all (R102). -/
def Obligations.PersistentConditionGivesOneEdge : Prop :=
  (∀ (i k : Nat) (s t u : State), i < 4 → HeldInReset s → s.regs.armed = true → s.regs.cprev.getLsbD i = false →
    (condBits s.params s.regs).getLsbD i = true →
    Input.reset ∉ s.inputs → (∀ who, Input.command who (encode .cmp) ∉ s.inputs) →
    exec .cmp s = .next t → Sys2Proof.core.run k t = .next u →
    (condBits u.params u.regs).getLsbD i = true →
    ∃ (v : State) (first second : Output),
      t.out = s.out ++ [first] ∧ first.hit.getLsbD i = true ∧ first.edge.getLsbD i = true
      ∧ t.regs.evf.getLsbD i = true
      ∧ exec .cmp u = .next v ∧ v.out = u.out ++ [second]
      ∧ second.hit.getLsbD i = true ∧ second.edge.getLsbD i = false
      ∧ v.regs.evf.getLsbD i = u.regs.evf.getLsbD i)
  ∧ (∀ s : State, s.regs.armed = true → ∃ (t u : State) (first second : Output),
    exec .cmp s = .next t ∧ t.out = s.out ++ [first] ∧ exec .cmp t = .next u ∧ u.out = t.out ++ [second]
    ∧ second.hit = first.hit ∧ second.edge = 0 ∧ u.regs = t.regs)

/-- R105 (a), (b): each condition bit is a function of its own reading and its own threshold, and neither
condition of a channel holds exactly in the open band between its two thresholds, which for the temperature are `LOP`
and `UPP` when `PARITY` is true (R100). -/
def Obligations.ConditionsAreIndependent : Prop :=
  (∀ (p : Params) (r q : Regs),
    (r.prs = q.prs → r.upp = q.upp → (condBits p r).getLsbD 0 = (condBits p q).getLsbD 0)
    ∧ (r.prs = q.prs → r.lop = q.lop → (condBits p r).getLsbD 1 = (condBits p q).getLsbD 1)
    ∧ (p.parity = false → r.tmp = q.tmp → r.upt = q.upt → (condBits p r).getLsbD 2 = (condBits p q).getLsbD 2)
    ∧ (p.parity = false → r.tmp = q.tmp → r.lot = q.lot → (condBits p r).getLsbD 3 = (condBits p q).getLsbD 3)
    ∧ (p.parity = true → r.tmp = q.tmp → r.upp = q.upp → (condBits p r).getLsbD 2 = (condBits p q).getLsbD 2)
    ∧ (p.parity = true → r.tmp = q.tmp → r.lop = q.lop → (condBits p r).getLsbD 3 = (condBits p q).getLsbD 3))
  ∧ (∀ (p : Params) (r : Regs),
    ((condBits p r).getLsbD 0 = false ∧ (condBits p r).getLsbD 1 = false)
      ↔ (r.lop.toInt < r.prs.toInt ∧ r.prs.toInt < r.upp.toInt))
  ∧ (∀ (p : Params) (r : Regs),
    ((condBits p r).getLsbD 2 = false ∧ (condBits p r).getLsbD 3 = false)
      ↔ ((if p.parity then r.lop else r.lot).toInt < r.tmp.toInt
        ∧ r.tmp.toInt < (if p.parity then r.upp else r.upt).toInt))

/-- R105 (c): the floored reading meets a threshold `H` from above exactly when the exact value does, and from below
exactly when the exact value is less than one unit above `H`. -/
def Obligations.FlooredComparisonsFollowExactValues : Prop :=
  ∀ (kt kp : Nat) (c : Coeffs) (rawT rawP : Int) (h : Q3216), 0 < kt → 0 < kp →
    (h.toInt ≤ presFixed kt kp c rawT rawP ↔ (h.toInt : ℚ) / 65536 ≤ pExact kt kp c rawT rawP)
    ∧ (presFixed kt kp c rawT rawP ≤ h.toInt ↔ pExact kt kp c rawT rawP < ((h.toInt : ℚ) + 1) / 65536)
    ∧ (h.toInt ≤ tempFixed kt c rawT ↔ (h.toInt : ℚ) / 65536 ≤ tExact kt c rawT)
    ∧ (tempFixed kt c rawT ≤ h.toInt ↔ tExact kt c rawT < ((h.toInt : ℚ) + 1) / 65536)

/-- R106: EVCLR clears exactly the flags its mask names and changes nothing else, `CPREV` included; with reserved bits set
or at another length the packet is `ILL`. A condition that held at the last CMP and still holds gives no new `EDGE` at
the next one although its flag has been cleared. -/
def Obligations.EvclrClearsTheMaskedFlags : Prop :=
  (∀ (s : State) (m : BitVec 4), ∃ e : BitVec 4,
    exec (.evclr m) s = .next { s with
      regs := { s.regs with evf := e }
      out := s.out ++ [{ rsp := [0x00], hit := 0, edge := 0 }] }
    ∧ ∀ i : Nat, e.getLsbD i = (s.regs.evf.getLsbD i && !m.getLsbD i))
  ∧ (∀ (s : State) (b1 : Byte), b1.toNat / 16 ≠ 0 →
    runPacket [0x07, b1] s = .next { s with out := s.out ++ [{ rsp := [0x01], hit := 0, edge := 0 }] })
  ∧ WrongLengthAnswersIll 0x07 1
  ∧ (∀ (s : State) (m : BitVec 4) (i : Nat), i < 4 → s.regs.armed = true →
    s.regs.cprev.getLsbD i = true → (condBits s.params s.regs).getLsbD i = true →
    ∃ (t u : State) (o : Output), exec (.evclr m) s = .next t ∧ exec .cmp t = .next u ∧ u.out = t.out ++ [o]
      ∧ o.hit.getLsbD i = true ∧ o.edge.getLsbD i = false ∧ u.regs.evf.getLsbD i = t.regs.evf.getLsbD i)

/-- R108: new thresholds of either pair take effect at the next CMP. With `PARITY` true the pressure pair is the
temperature's too, and a new temperature pair changes no condition (R100). -/
def Obligations.NewThresholdsCountAtTheNextCmp : Prop :=
  ∀ (s : State) (upper lower : Q3216),
    (∃ t u, exec (.setthrp upper lower) s = .next t ∧ exec .cmp t = .next u
      ∧ u.regs.cprev.getLsbD 0 = decide (s.regs.prs.toInt ≥ upper.toInt)
      ∧ u.regs.cprev.getLsbD 1 = decide (s.regs.prs.toInt ≤ lower.toInt)
      ∧ u.regs.cprev.getLsbD 2 = decide (s.regs.tmp.toInt ≥ (if s.params.parity then upper else s.regs.upt).toInt)
      ∧ u.regs.cprev.getLsbD 3 = decide (s.regs.tmp.toInt ≤ (if s.params.parity then lower else s.regs.lot).toInt))
    ∧ (∃ t u, exec (.setthrt upper lower) s = .next t ∧ exec .cmp t = .next u
      ∧ u.regs.cprev.getLsbD 0 = decide (s.regs.prs.toInt ≥ s.regs.upp.toInt)
      ∧ u.regs.cprev.getLsbD 1 = decide (s.regs.prs.toInt ≤ s.regs.lop.toInt)
      ∧ u.regs.cprev.getLsbD 2 = decide (s.regs.tmp.toInt ≥ (if s.params.parity then s.regs.upp else upper).toInt)
      ∧ u.regs.cprev.getLsbD 3 = decide (s.regs.tmp.toInt ≤ (if s.params.parity then s.regs.lop else lower).toInt))

/-- R107: with upper 1020 and lower 990, armed and with no condition remembered, the pressures 1025, 1015, 985, 1000
before four successive CMPs give the pressure bits 01, 00, 10, 00 of `HIT` and of `EDGE`, whatever the temperature;
with `PARITY` true and `TMP` below 990 temperature-low is raised at all four. -/
def Obligations.ScriptedPressuresRaiseHighThenLow : Prop :=
  ∀ s : State, s.regs.armed = true → s.regs.cprev = 0 →
    s.regs.upp = tc 48 (1020 * 65536) → s.regs.lop = tc 48 (990 * 65536) →
    let at_ : Int → State → State := fun n x => { x with regs := { x.regs with prs := tc 48 (n * 65536) } }
    ∃ (t1 t2 t3 t4 : State) (o1 o2 o3 o4 : Output),
      exec .cmp (at_ 1025 s) = .next t1 ∧ exec .cmp (at_ 1015 t1) = .next t2
      ∧ exec .cmp (at_ 985 t2) = .next t3 ∧ exec .cmp (at_ 1000 t3) = .next t4
      ∧ t4.out = s.out ++ [o1, o2, o3, o4]
      ∧ [o1, o2, o3, o4].map (fun o => o.hit.extractLsb' 0 2) = [0b01#2, 0b00#2, 0b10#2, 0b00#2]
      ∧ [o1, o2, o3, o4].map (fun o => o.edge.extractLsb' 0 2) = [0b01#2, 0b00#2, 0b10#2, 0b00#2]
      ∧ (s.params.parity = true → s.regs.tmp.toInt < 990 * 65536 →
        ∀ o ∈ [o1, o2, o3, o4], o.hit.getLsbD 3 = true)

/-! ## RD -/

/-- R113, R114: RD of every listed number answers the register's 48-bit value, most significant byte first; of every
other number `ILL`, and at another length `ILL`; and changes no register. A SCALE entry is stated where it is a 47-bit number. That RD of a wider
entry still answers status 00 and six bytes is the model's choice, not the spec's (DESIGN CHOICE, log entry 2). -/
def Obligations.RdAnswersTheRegisterMap : Prop :=
  (∀ (s : State),
    (∀ (n : BitVec 8) (v : BitVec 48), (n, v) ∈ registerTable s.regs →
      exec (.rd n) s = .next { s with out := s.out ++ [{ rsp := 0x00 :: beBytes 6 v.toNat, hit := 0, edge := 0 }] })
    ∧ (∀ i : Fin 8, ∃ v : BitVec 48,
      exec (.rd (BitVec.ofNat 8 (0x40 + i))) s
        = .next { s with out := s.out ++ [{ rsp := 0x00 :: beBytes 6 v.toNat, hit := 0, edge := 0 }] }
      ∧ (s.params.scale[i] < 2 ^ 47 → v.toNat = s.params.scale[i]))
    ∧ (∀ n : BitVec 8, registerListed n = false →
      exec (.rd n) s = .next { s with out := s.out ++ [{ rsp := [0x01], hit := 0, edge := 0 }] }))
  ∧ WrongLengthAnswersIll 0x08 1

/-- R113: the numbers the model reads are exactly the listed ones. -/
def Obligations.ReadableNumbersAreTheListedOnes : Prop :=
  ∀ n : BitVec 8, (regOf n).isSome = registerListed n

/-- R20: STATUS bit by bit. -/
def Obligations.StatusBits : Prop :=
  ∀ (r : Regs) (i : Nat),
    (statusWord r).getLsbD i =
      (if i = 0 then r.armed else if i = 1 then r.calv
       else if 4 ≤ i ∧ i ≤ 7 then r.evf.getLsbD (i - 4)
       else if 8 ≤ i ∧ i ≤ 11 then r.cprev.getLsbD (i - 8) else false)

/-- R38: RD and DEC change no register, and repeating an RD gives the same answer. -/
def Obligations.ReadsHaveNoSideEffect : Prop :=
  ∀ (s t u : State) (n : BitVec 8),
    exec (.rd n) s = .next t → exec (.rd n) t = .next u →
    t.regs = s.regs ∧ ∃ o : Output, t.out = s.out ++ [o] ∧ u.out = t.out ++ [o]

/-! ## Packets -/

/-- R47, R49, R58, R120: an illegal packet answers `01`, changes no register and pulses nothing; a packet that is not
illegal never answers `01`. -/
def Obligations.ExactlyTheIllegalPacketsAnswerIll : Prop :=
  ∀ (s : State) (who : Requester) (p : Packet) (rest : List Input), HeldInReset s → s.inputs = .command who p :: rest →
    (IllegalPacket p → step s = .next { s with
      inputs := rest, out := s.out ++ [{ rsp := [0x01], hit := 0, edge := 0 }] })
    ∧ (¬ IllegalPacket p → ∃ (t : State) (o : Output),
      step s = .next t ∧ t.out = s.out ++ [o] ∧ o.rsp.head? ≠ some 0x01)

/-- R45, R48, R61: every command packet is taken whole and answered by exactly one response, with one of the three status
bytes and the payload length its opcode fixes. -/
def Obligations.EveryPacketGetsOneResponse : Prop :=
  ∀ (s : State) (who : Requester) (p : Packet) (rest : List Input), s.inputs = .command who p :: rest →
    ∃ (t : State) (st : Byte) (payload : List Byte) (hit edge : BitVec 4),
      step s = .next t ∧ t.inputs = rest ∧ t.params = s.params
      ∧ t.out = s.out ++ [{ rsp := st :: payload, hit := hit, edge := edge }]
      ∧ ((st = 0x01 ∧ payload = []) ∨ (st = 0x02 ∧ payload = [] ∧ p.head? = some 0x02 ∧ s.regs.calv = true)
        ∨ (st = 0x00 ∧ ∃ op : Byte, p.head? = some op ∧
            (op.toNat, payload.length) ∈ [(1, 4), (2, 0), (3, 0), (4, 0), (5, 0), (6, 1), (7, 0), (8, 6)]))

/-- R57: the operands assembled from the packet bytes, most significant byte first. -/
def Obligations.OperandsAreAssembledMostSignificantFirst : Prop :=
  (∀ b1 v2 v1 v0 : Byte, b1.toNat < 32 → ∃ (w : BitVec 5) (v : Raw24),
    decode [0x01, b1, v2, v1, v0] = .ok (.dec w v) ∧ w.toNat = b1.toNat
    ∧ v.toNat = (v2.toNat <<< 16) ||| (v1.toNat <<< 8) ||| v0.toNat)
  ∧ (∀ args : List Byte, args.length = 18 → ∃ block : CalBlock,
    decode (0x02 :: args) = .ok (.ldcal block) ∧ ∀ k : Nat, k < 18 → calByte block k = (args.getD k 0).toNat)
  ∧ (∀ t2 t1 t0 p2 p1 p0 : Byte, ∃ uT uP : Raw24,
    decode [0x03, t2, t1, t0, p2, p1, p0] = .ok (.sample uT uP)
    ∧ uT.toNat = (t2.toNat <<< 16) ||| (t1.toNat <<< 8) ||| t0.toNat
    ∧ uP.toNat = (p2.toNat <<< 16) ||| (p1.toNat <<< 8) ||| p0.toNat)
  ∧ (∀ u5 u4 u3 u2 u1 u0 l5 l4 l3 l2 l1 l0 : Byte, ∃ upper lower : Q3216,
    decode [0x04, u5, u4, u3, u2, u1, u0, l5, l4, l3, l2, l1, l0] = .ok (.setthrp upper lower)
    ∧ decode [0x05, u5, u4, u3, u2, u1, u0, l5, l4, l3, l2, l1, l0] = .ok (.setthrt upper lower)
    ∧ upper.toNat = (u5.toNat <<< 40) ||| (u4.toNat <<< 32) ||| (u3.toNat <<< 24) ||| (u2.toNat <<< 16)
        ||| (u1.toNat <<< 8) ||| u0.toNat
    ∧ lower.toNat = (l5.toNat <<< 40) ||| (l4.toNat <<< 32) ||| (l3.toNat <<< 24) ||| (l2.toNat <<< 16)
        ||| (l1.toNat <<< 8) ||| l0.toNat)
  ∧ (∀ m : Byte, m.toNat < 16 → ∃ k : BitVec 4, decode [0x07, m] = .ok (.evclr k) ∧ k.toNat = m.toNat)
  ∧ (∀ n : Byte, decode [0x08, n] = .ok (.rd n))

/-- Decoding an encoded instruction gives it back, every operand at every value (R45 to R57). -/
def Obligations.DecodeOfEncode : Prop :=
  ∀ i : Instr, decode (encode i) = .ok i

/-- Every packet the decoder accepts is the encoding of what it reads: no two packets mean one instruction
(R45 to R57). -/
def Obligations.EncodeOfDecode : Prop :=
  ∀ (p : Packet) (i : Instr), decode p = .ok i → encode i = p

/-- Packets written out from R59 and the spec's examples decode to the commands they stand for. -/
def Obligations.WrittenPacketsDecode : Prop :=
  decode [0x01, 0x0C, 0x00, 0x08, 0x00] = .ok (.dec 12 0x800)
  ∧ decode [0x03, 0x02, 0x00, 0x00, 0xFC, 0x00, 0x00] = .ok (.sample 0x020000 0xFC0000)
  ∧ decode [0x04, 0x00, 0x00, 0x03, 0xF5, 0x40, 0x00, 0x00, 0x00, 0x03, 0xE8, 0x00, 0x00]
      = .ok (.setthrp 0x000003F54000 0x000003E80000)
  ∧ decode [0x05, 0x00, 0x00, 0x00, 0x1E, 0x00, 0x00, 0x00, 0x00, 0x00, 0x0A, 0x00, 0x00]
      = .ok (.setthrt 0x0000001E0000 0x0000000A0000)
  ∧ decode [0x06] = .ok .cmp
  ∧ decode [0x07, 0x01] = .ok (.evclr 1)
  ∧ decode [0x08, 0x20] = .ok (.rd 0x20)

/-! ## The step and whole-machine rules -/

/-- R39, R47: a step on a command whose packet decodes runs that instruction on the state with the packet taken; on one
that does not decode it answers `ILL`. While `rst_i` is asserted both happen in the reset state and leave it (R26; that
the packet is answered then is the model's reading, log entry 15). With nothing waiting the state stays as it is (the
model's reading, log entry 7). -/
def Obligations.StepRunsTheDecodedInstruction : Prop :=
  (∀ (s : State) (who : Requester) (p : Packet) (rest : List Input) (i : Instr),
    s.rst = false → s.inputs = .command who p :: rest → decode p = .ok i → step s = exec i { s with inputs := rest })
  ∧ (∀ (s : State) (who : Requester) (p : Packet) (rest : List Input) (i : Instr),
    s.rst = true → s.inputs = .command who p :: rest → decode p = .ok i →
    ∃ t, exec i { s with regs := State.reset.regs, inputs := rest } = .next t
      ∧ step s = .next { t with regs := State.reset.regs })
  ∧ (∀ (s : State) (who : Requester) (p : Packet) (rest : List Input) (e : DecodeError),
    s.inputs = .command who p :: rest → decode p = .error e →
    step s = .next { s with
      regs := if s.rst then State.reset.regs else s.regs
      inputs := rest
      out := s.out ++ [{ rsp := [0x01], hit := 0, edge := 0 }] })
  ∧ (∀ s : State, s.inputs = [] → step s = .next s)

/-- No state and no input makes the machine fault or refuse. This is the model's reading of R120, R121, R122 and R132:
the spec calls `ILL` the block's fault, and the model makes it and `LOCKED` next states (DEDUCED, log entry 11); with no
input waiting the step leaves the state as it is (DEDUCED, log entry 7). -/
def Obligations.EveryStepCompletes : Prop :=
  ∀ s : State, Completes (step s)

/-- R23, R130: who sends a packet changes nothing: two states that differ only in the senders of their waiting commands
step to states that do the same. -/
def Obligations.RequestersAreIndistinguishable : Prop :=
  ∀ (s : State) (a b : Requester) (p : Packet) (rest : List Input),
    step { s with inputs := .command a p :: rest } = step { s with inputs := .command b p :: rest }

/-- R11, R14, R16, R18, R19, R36: each register is changed only by the operations that write it. -/
def Obligations.RegistersChangeOnlyByTheirOperations : Prop :=
  ∀ (s t : State) (who : Requester) (p : Packet) (rest : List Input),
    HeldInReset s → s.inputs = .command who p :: rest → step s = .next t →
    (t.regs.cal ≠ s.regs.cal ∨ t.regs.calv ≠ s.regs.calv → ∃ b, p = encode (.ldcal b))
    ∧ (t.regs.tmp ≠ s.regs.tmp ∨ t.regs.prs ≠ s.regs.prs → ∃ uT uP, p = encode (.sample uT uP))
    ∧ (t.regs.upp ≠ s.regs.upp ∨ t.regs.lop ≠ s.regs.lop → ∃ u l, p = encode (.setthrp u l))
    ∧ (t.regs.upt ≠ s.regs.upt ∨ t.regs.lot ≠ s.regs.lot → ∃ u l, p = encode (.setthrt u l))
    ∧ (t.regs.armed ≠ s.regs.armed → (∃ u l, p = encode (.setthrp u l)) ∨ ∃ u l, p = encode (.setthrt u l))
    ∧ (t.regs.cprev ≠ s.regs.cprev → p = encode .cmp)
    ∧ (t.regs.evf ≠ s.regs.evf → p = encode .cmp ∨ ∃ m, p = encode (.evclr m))

/-- R101, R124: only a CMP packet of an armed block pulses an event output. -/
def Obligations.OnlyArmedCmpPulses : Prop :=
  ∀ (s t : State) (who : Requester) (p : Packet) (rest : List Input) (o : Output),
    s.inputs = .command who p :: rest → step s = .next t → t.out = s.out ++ [o] →
    o.hit ≠ 0 ∨ o.edge ≠ 0 → p = [0x06] ∧ s.regs.armed = true

/-- R12, R17, R25: no command clears `ARMED` or `CALV`, and once `CALV` is set the coefficients stay. -/
def Obligations.LatchesHoldUntilReset : Prop :=
  ∀ (s t : State) (who : Requester) (p : Packet) (rest : List Input),
    HeldInReset s → s.inputs = .command who p :: rest → step s = .next t →
    (s.regs.armed = true → t.regs.armed = true)
    ∧ (s.regs.calv = true → t.regs.calv = true ∧ t.regs.cal = s.regs.cal)

/-- The reset state meets the machine's invariant (R25). -/
def Obligations.InvariantAtReset : Prop := Inv State.reset

/-- R25, R26, R48, R61: from every state that meets the invariant, a step gives a state that meets it. -/
def Obligations.StepKeepsInvariant : Prop :=
  ∀ s t : State, Inv s → step s = .next t → Inv t

/-! ## Runs -/

/-- R39, R45: as many steps as there are inputs take them all, and give as many responses as there are command
packets. -/
def Obligations.RunAnswersEveryCommand : Prop :=
  ∀ s : State, ∃ t : State, Sys2Proof.core.run s.inputs.length s = .next t
    ∧ t.inputs = [] ∧ t.params = s.params
    ∧ ∃ given : List Output, t.out = s.out ++ given
      ∧ given.length = (framesOf .host s.inputs).length + (framesOf .monitor s.inputs).length

/-- R37, R40: whatever the merge of the two requesters' packets, and after any number of steps, `TMP` and `PRS` are never
from two different samples. -/
def Obligations.ReadingsAreNeverTorn : Prop :=
  ∀ (k : Nat) (s t : State), Sys2Proof.core.run k s = .next t → PairedReadings s t.regs.tmp t.regs.prs

/-- R42: without a reset among its inputs, a run keeps `ARMED` and the loaded calibration, so `armed_o` rises at most
once. -/
def Obligations.ArmedRisesAtMostOnce : Prop :=
  ∀ (k m : Nat) (s a b c d : State), .reset ∉ s.inputs → k < m →
    Sys2Proof.core.run k s = .next a → step a = .next b →
    Sys2Proof.core.run m s = .next c → step c = .next d →
    ¬ (armedRises a b = true ∧ armedRises c d = true)

/-- R40: delivering a requester's packets appends them to that requester's own order and leaves the other's alone, and
the frame a step takes is the next one of its sender. -/
def Obligations.MergesKeepEachRequestersOrder : Prop :=
  (∀ (s : State) (host monitor packets : List Packet), IsMerge host monitor s.inputs →
    IsMerge (host ++ packets) monitor (s.deliver .host packets).inputs
    ∧ IsMerge host (monitor ++ packets) (s.deliver .monitor packets).inputs)
  ∧ (∀ (s t : State) (host monitor : List Packet) (p : Packet) (rest : List Input),
    IsMerge host monitor s.inputs → step s = .next t →
    (s.inputs = .command .host p :: rest → ∃ host', host = p :: host' ∧ IsMerge host' monitor t.inputs)
    ∧ (s.inputs = .command .monitor p :: rest → ∃ monitor', monitor = p :: monitor' ∧ IsMerge host monitor' t.inputs))

/-! ## The environment's sequences -/

/-- R143: `INIT` writes the four configuration registers in order, each write followed by the settling delay, sets the
pointer to the calibration block, reads its 18 bytes in one burst, and issues LDCAL of those bytes in the order read. -/
def Obligations.InitLoadsTheBytesRead : Prop :=
  ∀ block : CalBlock, ∃ b : List Byte, b.length = 18
    ∧ initSequence block = [.busWrite 0x06 0x71, .wait, .busWrite 0x07 0xF0, .wait, .busWrite 0x09 0x00, .wait,
        .busWrite 0x08 0x07, .wait, .busPtr 0x10, .busRead b, .issue (0x02 :: b)]
    ∧ 0x02 :: b = encode (.ldcal block)

/-- R146: `READDATA` requests a temperature conversion and reads its three bytes, then the same for pressure, issues the
SAMPLE of the six bytes in the order read, and waits; these are ten bus transactions (R152). -/
def Obligations.ReadDataSamplesTheBytesRead : Prop :=
  ∀ t2 t1 t0 p2 p1 p0 : Byte,
    readDataSequence t2 t1 t0 p2 p1 p0 =
      [.busWrite 0x08 0x02, .busPtr 0x03, .busRead [t2], .busRead [t1], .busRead [t0],
       .busWrite 0x08 0x01, .busPtr 0x00, .busRead [p2], .busRead [p1], .busRead [p0],
       .issue [0x03, t2, t1, t0, p2, p1, p0], .wait]
    ∧ (readDataSequence t2 t1 t0 p2 p1 p0).countP EnvAction.isBus = 10
    ∧ [0x03, t2, t1, t0, p2, p1, p0] = encode (.sample (t2 ++ t1 ++ t0) (p2 ++ p1 ++ p0))

/-- R109, R131: the MONITOR's loop issues SAMPLE and CMP alternately, one pair per sampling, and nothing else. -/
def Obligations.PollLoopAlternatesSampleAndCmp : Prop :=
  ∀ readings : List RawBytes,
    commandsOf (pollLoop readings) = (readings.map (fun b =>
      [encode (.sample (b.t2 ++ b.t1 ++ b.t0) (b.p2 ++ b.p1 ++ b.p0)), encode .cmp])).flatten

/-- R104, R127: the events a pulse vector raises are exactly its set bits, each once, in the order pressure-high,
pressure-low, temperature-high, temperature-low. -/
def Obligations.EventsAreRaisedInOrder : Prop :=
  ∀ pulses : BitVec 4,
    (∀ e : Event, e ∈ raisedEvents pulses ↔ pulses.getLsbD e.bit = true)
    ∧ (raisedEvents pulses).Pairwise (fun a b => a.bit < b.bit)

/-- R59, R113: in the text form each register name stands for its own number of R113, which reads the register of that
name; no other name and no other number is in the table. -/
def Obligations.RegisterNamesAreListed : Prop :=
  (∀ e ∈ ([("C0", 0x00, .c0), ("C1", 0x01, .c1), ("C00", 0x02, .c00), ("C10", 0x03, .c10), ("C01", 0x04, .c01),
      ("C11", 0x05, .c11), ("C20", 0x06, .c20), ("C21", 0x07, .c21), ("C30", 0x08, .c30),
      ("TMP", 0x10, .tmp), ("PRS", 0x11, .prs), ("DISP_T", 0x12, .dispT), ("DISP_P", 0x13, .dispP),
      ("UPP", 0x20, .upp), ("LOP", 0x21, .lop), ("UPT", 0x22, .upt), ("LOT", 0x23, .lot),
      ("STATUS", 0x30, .status), ("POLLMS", 0x31, .pollms),
      ("SCALE0", 0x40, .scale 0), ("SCALE1", 0x41, .scale 1), ("SCALE2", 0x42, .scale 2), ("SCALE3", 0x43, .scale 3),
      ("SCALE4", 0x44, .scale 4), ("SCALE5", 0x45, .scale 5), ("SCALE6", 0x46, .scale 6), ("SCALE7", 0x47, .scale 7)]
      : List (String × Byte × RegName)),
    assembleTokens ["RD".toList, e.1.toList] = some [0x08, e.2.1] ∧ regOf e.2.1 = some e.2.2)
  ∧ registerNames.length = 27
  ∧ (registerNames.map Prod.fst).Nodup ∧ (registerNames.map Prod.snd).Nodup
  ∧ ∀ n : BitVec 8, registerListed n = true ↔ n ∈ registerNames.map Prod.snd

/-- R59: a threshold written as a decimal number `x` stands for `tc_48(floor(x * 65536))`, where R8 defines that. That
a number beyond it has no pattern at all is the model's choice, not the spec's (DEDUCED, log entry 9). -/
def Obligations.DecimalThresholdsAreFloored : Prop :=
  ∀ (num : Int) (den : Nat), 0 < den →
    let x : Int := ⌊(num : ℚ) / (den : ℚ) * 65536⌋
    (-2 ^ 47 ≤ x ∧ x < 2 ^ 47 → ∃ q : Q3216, thresholdPattern num den = some q ∧ q.toInt = x)
    ∧ (¬ (-2 ^ 47 ≤ x ∧ x < 2 ^ 47) → thresholdPattern num den = none)

/-! ## The three agents -/

/-- R27, R131: a move keeps MONITOR in existence exactly while the block is armed, starts it at the rise of `armed_o` with
a SAMPLE next, ends it at reset and at nothing else, and leaves no packet waiting and no calibration before `INIT`. One
clause is the model's reading, not the spec's: that a reset also sets HOST back to its start, `HostAgent.boot`
(DEDUCED, log entry 13). -/
def Obligations.MonitorLivesFromArmingToReset : Prop :=
  PlatformInv Platform.reset
  ∧ ∀ (p q : Platform) (m : Move), p.move m = some q →
    (PlatformInv p → PlatformInv q)
    ∧ (armedRises p.block q.block = true → q.monitor = .sampling)
    ∧ (m = .reset → q.monitor = .absent ∧ q.host = HostAgent.boot)
    ∧ (m ≠ .reset → p.monitor ≠ .absent → q.monitor ≠ .absent)

/-- R109, R131: in a run without reset from a platform that meets the invariant, the frames of MONITOR are a beginning of
the commands of the poll loop for some samplings, after the CMP it may owe at the start; while the block stays Idle there
are none. -/
def Obligations.MonitorSendsThePollLoop : Prop :=
  ∀ (ms : List Move) (p q : Platform), .reset ∉ ms → PlatformInv p → Platform.run ms p = some q →
    (∃ readings : List RawBytes, framesOf .monitor (traffic ms) <+:
      (if p.monitor = .comparing then [encode .cmp] else []) ++ commandsOf (pollLoop readings))
    ∧ (q.block.regs.armed = false → framesOf .monitor (traffic ms) = [])

/-- R131, R142: between two resets HOST sends at most one LDCAL, that of its one `INIT`, sends only threshold
configuration before it, and never a CMP; so from reset no run of the platform is ever answered `LOCKED`. What HOST may
send before `INIT` is the model's reading (DEDUCED, log entry 13). -/
def Obligations.HostIssuesInitOnce : Prop :=
  (∀ (ms : List Move) (p q : Platform), .reset ∉ ms → Platform.run ms p = some q →
    (framesOf .host (traffic ms)).countP isLdcal + p.host.initDone.toNat ≤ 1
    ∧ (q.host.initDone = false → ∀ f ∈ framesOf .host (traffic ms),
      ∃ upper lower, f = encode (.setthrp upper lower) ∨ f = encode (.setthrt upper lower))
    ∧ encode .cmp ∉ framesOf .host (traffic ms))
  ∧ ∀ (ms : List Move) (q : Platform), Platform.run ms Platform.reset = some q →
    ∀ o ∈ q.block.out, o.rsp ≠ [0x02]

/-- R40, R131: a run of the platform is a run of the block on the traffic of its moves: the block sees only the merged
packets and resets. -/
def Obligations.PlatformRunIsABlockRun : Prop :=
  ∀ (ms : List Move) (p q : Platform), p.block.inputs = [] → Platform.run ms p = some q →
    Sys2Proof.core.run (traffic ms).length { p.block with inputs := traffic ms } = .next q.block

/-- R131, R132: the block never blocks a requester: reset is always possible, and so is every move an agent may make. -/
def Obligations.AllowedMovesComplete : Prop :=
  ∀ p : Platform,
    (∃ q, p.move .reset = some q)
    ∧ (∀ (m : HostMove) (h : HostAgent), p.host.after m = some h → ∃ q, p.move (.host m) = some q ∧ q.host = h)
    ∧ (∀ (m : MonitorMove) (h : MonitorPhase), p.monitor.after m = some h →
      ∃ q, p.move (.monitor m) = some q ∧ q.monitor = h)

/-- R109, R156: the poll loop is unbounded repetition under fairness. In an execution that is fair to MONITOR, from any time
at which the block is armed, with no reset from then on, SAMPLE and CMP of MONITOR both come again and again; and what an
execution does up to any time is a finite run of the platform. What fairness is is the model's reading (DEDUCED,
log entry 14). -/
def Obligations.FairMonitorPollsWithoutEnd : Prop :=
  ∀ (states : Nat → Platform) (moves : Nat → Option Move), IsExecution states moves →
    (∀ n, Platform.run (movesBefore moves n) (states 0) = some (states n))
    ∧ (PlatformInv (states 0) → MonitorFair states moves →
      ∀ n, (states n).block.regs.armed = true → (∀ k, n ≤ k → moves k ≠ some .reset) →
        ∀ k, n ≤ k →
          (∃ i b, k ≤ i ∧ moves i = some (.monitor (.sample b))) ∧ ∃ j, k ≤ j ∧ moves j = some (.monitor .compare))
end

