-- ==== Sys2Proof/Laws/Codec.lean ====
section
/-! SUPPORT. Laws of the byte order: `beNat` and `beBytes` are inverse to each other on the lengths and ranges of the
packet formats (R33), and the opcode map is injective (R46). -/

namespace Sys2Proof

@[simp] theorem beBytes_length (n x : Nat) : (beBytes n x).length = n := by
  induction n with
  | zero => rfl
  | succ n ih => simp [beBytes, ih]

theorem beNat_lt (bs : List Byte) : beNat bs < 256 ^ bs.length := by
  induction bs with
  | nil => simp [beNat]
  | cons b bs ih =>
    have hb : b.toNat + 1 ≤ 256 := b.isLt
    calc beNat (b :: bs) = b.toNat * 256 ^ bs.length + beNat bs := rfl
      _ < b.toNat * 256 ^ bs.length + 256 ^ bs.length := by omega
      _ = (b.toNat + 1) * 256 ^ bs.length := by ring
      _ ≤ 256 * 256 ^ bs.length := Nat.mul_le_mul_right _ hb
      _ = 256 ^ (b :: bs).length := by simp [pow_succ, Nat.mul_comm]

/-- The bytes of a number name it again, up to the bytes' range. -/
theorem beNat_beBytes (n x : Nat) : beNat (beBytes n x) = x % 256 ^ n := by
  induction n with
  | zero => simp [beBytes, beNat, Nat.mod_one]
  | succ n ih =>
    have e : x % 256 ^ (n + 1) = x % 256 ^ n + 256 ^ n * (x / 256 ^ n % 256) := by rw [pow_succ, Nat.mod_mul]
    simp only [beBytes, beNat, beBytes_length, ih, BitVec.toNat_ofNat, e, Nat.reducePow]
    ring

theorem beNat_beBytes_of_lt {n x : Nat} (h : x < 256 ^ n) : beNat (beBytes n x) = x := by
  rw [beNat_beBytes, Nat.mod_eq_of_lt h]

theorem beBytes_mod (n x k : Nat) : beBytes n (k * 256 ^ n + x) = beBytes n x := by
  induction n generalizing k with
  | zero => rfl
  | succ n ih =>
    have hp : (0 : Nat) < 256 ^ n := by positivity
    have e : k * 256 ^ (n + 1) + x = (k * 256) * 256 ^ n + x := by ring
    simp only [beBytes]
    rw [e, ih]
    congr 1
    apply BitVec.eq_of_toNat_eq
    rw [BitVec.toNat_ofNat, BitVec.toNat_ofNat, Nat.add_comm, Nat.add_mul_div_right _ _ hp]
    omega

/-- The number of a byte sequence has those bytes. -/
theorem beBytes_beNat (bs : List Byte) : beBytes bs.length (beNat bs) = bs := by
  induction bs with
  | nil => rfl
  | cons b bs ih =>
    have hp : (0 : Nat) < 256 ^ bs.length := by positivity
    have hl := beNat_lt bs
    simp only [List.length_cons, beBytes, beNat]
    rw [beBytes_mod, ih, Nat.add_comm, Nat.add_mul_div_right _ _ hp, Nat.div_eq_of_lt hl]
    simp

theorem beBytes_beNat_of_length {n : Nat} {bs : List Byte} (h : bs.length = n) : beBytes n (beNat bs) = bs := by
  subst h; exact beBytes_beNat bs

/-- Reading a fixed-width pattern back from its bytes. -/
theorem ofNat_beNat_beBytes {w n : Nat} (h : 2 ^ w ≤ 256 ^ n) (x : BitVec w) :
    BitVec.ofNat w (beNat (beBytes n x.toNat)) = x := by
  rw [beNat_beBytes_of_lt (lt_of_lt_of_le x.isLt h)]; simp

/-- The opcode byte names its operation (R46). -/
@[simp] theorem opcodeOf_code (o : Opcode) : opcodeOf o.code = some o := by cases o <;> rfl

/-- Only its own byte names an operation (R46, R49). -/
theorem opcodeOf_eq_some {b : Byte} {o : Opcode} : opcodeOf b = some o ↔ b = o.code := by
  constructor
  · intro h
    have hn : b.toNat = o.code.toNat := by
      revert h; unfold opcodeOf; split <;> simp_all [Opcode.code] <;> rintro rfl <;> rfl
    exact BitVec.eq_of_toNat_eq hn
  · rintro rfl; exact opcodeOf_code o

/-- Opcodes `0x00` and `0x09` to `0xFF` name nothing (R49). -/
theorem opcodeOf_eq_none {b : Byte} : opcodeOf b = none ↔ b.toNat = 0 ∨ 9 ≤ b.toNat := by
  unfold opcodeOf
  split <;> simp_all
  omega

@[simp] theorem encodeOperands_length (i : Instr) : (encodeOperands i).length + 1 = i.opcode.len := by
  cases i <;> simp [encodeOperands, Instr.opcode, Opcode.len]

end Sys2Proof
end

