-- ==== Sys2Proof/Laws/Operands.lean ====
section
/-! SUPPORT. Laws of the decoder function and of the register numbers, in the form later proofs use them (R65, R113). -/

namespace Sys2Proof
namespace Machine

/-- On its domain the decoder is the two's-complement reading of a `w`-bit pattern (R66 (d)). -/
theorem dec_eq_toInt {v w : Nat} (hv : v < 2 ^ w) : dec v w = (BitVec.ofNat w v).toInt := by
  have hm : (BitVec.ofNat w v).toNat = v := by simp [Nat.mod_eq_of_lt hv]
  rw [dec, BitVec.toInt_eq_msb_cond, BitVec.msb_eq_getLsbD_last, ← BitVec.testBit_toNat, hm]
  split <;> simp

theorem dec_toNat {w : Nat} (x : BitVec w) : dec x.toNat w = x.toInt := by
  rw [dec_eq_toInt x.isLt]; simp

/-- The pattern of a decoded value is the value's own pattern. -/
theorem tc_dec {v w : Nat} (hv : v < 2 ^ w) : tc w (dec v w) = BitVec.ofNat w v := by
  rw [tc, dec_eq_toInt hv, BitVec.ofInt_toInt]

theorem toInt_tc_dec {v w : Nat} (hv : v < 2 ^ w) : (tc w (dec v w)).toInt = dec v w := by
  rw [tc_dec hv, dec_eq_toInt hv]

/-- Inside the range of R8 the pattern reads back as the number. -/
theorem toInt_tc {n : Nat} {x : Int} (hn : 1 ≤ n) (h0 : -2 ^ (n - 1) ≤ x) (h1 : x < 2 ^ (n - 1)) :
    (tc n x).toInt = x := by
  have hp : (2 : Int) ^ n = 2 * 2 ^ (n - 1) := by
    conv_lhs => rw [show n = (n - 1) + 1 by omega, pow_succ]
    ring
  rw [tc, BitVec.toInt_ofInt, Int.bmod_eq_of_le] <;> push_cast <;> omega

theorem rawCode_eq (u : Raw24) : rawCode u = u.toInt := dec_toNat u

theorem rawCode_bounds (u : Raw24) : -2 ^ 23 ≤ rawCode u ∧ rawCode u < 2 ^ 23 := by
  rw [rawCode_eq]
  have h0 := BitVec.le_toInt u
  have h1 := BitVec.toInt_lt (x := u)
  constructor <;> simpa using ‹_›

theorem calByte_lt (b : CalBlock) (k : Nat) : calByte b k < 256 := Nat.mod_lt _ (by omega)

end Machine
end Sys2Proof
end

