-- ==== Sys2Proof/Laws/State.lean ====
section
/-! SUPPORT. One lemma per field per update of the state, true by rfl, for the simp set (R8: all writes of one
operation happen together). -/

namespace Sys2Proof
namespace Machine

/-! ### `State.setRegs` -/

@[simp] theorem State.setRegs_regs (s : State) (r : Regs) : (s.setRegs r).regs = r := rfl
@[simp] theorem State.setRegs_params (s : State) (r : Regs) : (s.setRegs r).params = s.params := rfl
@[simp] theorem State.setRegs_rst (s : State) (r : Regs) : (s.setRegs r).rst = s.rst := rfl
@[simp] theorem State.setRegs_inputs (s : State) (r : Regs) : (s.setRegs r).inputs = s.inputs := rfl
@[simp] theorem State.setRegs_out (s : State) (r : Regs) : (s.setRegs r).out = s.out := rfl

/-! ### `State.setRst` -/

@[simp] theorem State.setRst_regs (s : State) (b : Bool) : (s.setRst b).regs = s.regs := rfl
@[simp] theorem State.setRst_params (s : State) (b : Bool) : (s.setRst b).params = s.params := rfl
@[simp] theorem State.setRst_rst (s : State) (b : Bool) : (s.setRst b).rst = b := rfl
@[simp] theorem State.setRst_inputs (s : State) (b : Bool) : (s.setRst b).inputs = s.inputs := rfl
@[simp] theorem State.setRst_out (s : State) (b : Bool) : (s.setRst b).out = s.out := rfl

/-! ### `State.setInputs` -/

@[simp] theorem State.setInputs_regs (s : State) (i : List Input) : (s.setInputs i).regs = s.regs := rfl
@[simp] theorem State.setInputs_params (s : State) (i : List Input) : (s.setInputs i).params = s.params := rfl
@[simp] theorem State.setInputs_rst (s : State) (i : List Input) : (s.setInputs i).rst = s.rst := rfl
@[simp] theorem State.setInputs_inputs (s : State) (i : List Input) : (s.setInputs i).inputs = i := rfl
@[simp] theorem State.setInputs_out (s : State) (i : List Input) : (s.setInputs i).out = s.out := rfl

/-! ### `State.emit` -/

@[simp] theorem State.emit_regs (s : State) (o : Output) : (s.emit o).regs = s.regs := rfl
@[simp] theorem State.emit_params (s : State) (o : Output) : (s.emit o).params = s.params := rfl
@[simp] theorem State.emit_rst (s : State) (o : Output) : (s.emit o).rst = s.rst := rfl
@[simp] theorem State.emit_inputs (s : State) (o : Output) : (s.emit o).inputs = s.inputs := rfl
@[simp] theorem State.emit_out (s : State) (o : Output) : (s.emit o).out = s.out ++ [o] := rfl

/-! ### `Regs.loadCal` -/

@[simp] theorem Regs.loadCal_cal (r : Regs) (c : Coeffs) : (r.loadCal c).cal = c := rfl
@[simp] theorem Regs.loadCal_calv (r : Regs) (c : Coeffs) : (r.loadCal c).calv = true := rfl
@[simp] theorem Regs.loadCal_tmp (r : Regs) (c : Coeffs) : (r.loadCal c).tmp = r.tmp := rfl
@[simp] theorem Regs.loadCal_prs (r : Regs) (c : Coeffs) : (r.loadCal c).prs = r.prs := rfl
@[simp] theorem Regs.loadCal_upp (r : Regs) (c : Coeffs) : (r.loadCal c).upp = r.upp := rfl
@[simp] theorem Regs.loadCal_lop (r : Regs) (c : Coeffs) : (r.loadCal c).lop = r.lop := rfl
@[simp] theorem Regs.loadCal_upt (r : Regs) (c : Coeffs) : (r.loadCal c).upt = r.upt := rfl
@[simp] theorem Regs.loadCal_lot (r : Regs) (c : Coeffs) : (r.loadCal c).lot = r.lot := rfl
@[simp] theorem Regs.loadCal_armed (r : Regs) (c : Coeffs) : (r.loadCal c).armed = r.armed := rfl
@[simp] theorem Regs.loadCal_cprev (r : Regs) (c : Coeffs) : (r.loadCal c).cprev = r.cprev := rfl
@[simp] theorem Regs.loadCal_evf (r : Regs) (c : Coeffs) : (r.loadCal c).evf = r.evf := rfl

/-! ### `Regs.setReadings` -/

@[simp] theorem Regs.setReadings_cal (r : Regs) (t p : Q3216) : (r.setReadings t p).cal = r.cal := rfl
@[simp] theorem Regs.setReadings_calv (r : Regs) (t p : Q3216) : (r.setReadings t p).calv = r.calv := rfl
@[simp] theorem Regs.setReadings_tmp (r : Regs) (t p : Q3216) : (r.setReadings t p).tmp = t := rfl
@[simp] theorem Regs.setReadings_prs (r : Regs) (t p : Q3216) : (r.setReadings t p).prs = p := rfl
@[simp] theorem Regs.setReadings_upp (r : Regs) (t p : Q3216) : (r.setReadings t p).upp = r.upp := rfl
@[simp] theorem Regs.setReadings_lop (r : Regs) (t p : Q3216) : (r.setReadings t p).lop = r.lop := rfl
@[simp] theorem Regs.setReadings_upt (r : Regs) (t p : Q3216) : (r.setReadings t p).upt = r.upt := rfl
@[simp] theorem Regs.setReadings_lot (r : Regs) (t p : Q3216) : (r.setReadings t p).lot = r.lot := rfl
@[simp] theorem Regs.setReadings_armed (r : Regs) (t p : Q3216) : (r.setReadings t p).armed = r.armed := rfl
@[simp] theorem Regs.setReadings_cprev (r : Regs) (t p : Q3216) : (r.setReadings t p).cprev = r.cprev := rfl
@[simp] theorem Regs.setReadings_evf (r : Regs) (t p : Q3216) : (r.setReadings t p).evf = r.evf := rfl

/-! ### `Regs.setPressure` -/

@[simp] theorem Regs.setPressure_cal (r : Regs) (u l : Q3216) : (r.setPressure u l).cal = r.cal := rfl
@[simp] theorem Regs.setPressure_calv (r : Regs) (u l : Q3216) : (r.setPressure u l).calv = r.calv := rfl
@[simp] theorem Regs.setPressure_tmp (r : Regs) (u l : Q3216) : (r.setPressure u l).tmp = r.tmp := rfl
@[simp] theorem Regs.setPressure_prs (r : Regs) (u l : Q3216) : (r.setPressure u l).prs = r.prs := rfl
@[simp] theorem Regs.setPressure_upp (r : Regs) (u l : Q3216) : (r.setPressure u l).upp = u := rfl
@[simp] theorem Regs.setPressure_lop (r : Regs) (u l : Q3216) : (r.setPressure u l).lop = l := rfl
@[simp] theorem Regs.setPressure_upt (r : Regs) (u l : Q3216) : (r.setPressure u l).upt = r.upt := rfl
@[simp] theorem Regs.setPressure_lot (r : Regs) (u l : Q3216) : (r.setPressure u l).lot = r.lot := rfl
@[simp] theorem Regs.setPressure_armed (r : Regs) (u l : Q3216) : (r.setPressure u l).armed = true := rfl
@[simp] theorem Regs.setPressure_cprev (r : Regs) (u l : Q3216) : (r.setPressure u l).cprev = r.cprev := rfl
@[simp] theorem Regs.setPressure_evf (r : Regs) (u l : Q3216) : (r.setPressure u l).evf = r.evf := rfl

/-! ### `Regs.setTemperature` -/

@[simp] theorem Regs.setTemperature_cal (r : Regs) (u l : Q3216) : (r.setTemperature u l).cal = r.cal := rfl
@[simp] theorem Regs.setTemperature_calv (r : Regs) (u l : Q3216) : (r.setTemperature u l).calv = r.calv := rfl
@[simp] theorem Regs.setTemperature_tmp (r : Regs) (u l : Q3216) : (r.setTemperature u l).tmp = r.tmp := rfl
@[simp] theorem Regs.setTemperature_prs (r : Regs) (u l : Q3216) : (r.setTemperature u l).prs = r.prs := rfl
@[simp] theorem Regs.setTemperature_upp (r : Regs) (u l : Q3216) : (r.setTemperature u l).upp = r.upp := rfl
@[simp] theorem Regs.setTemperature_lop (r : Regs) (u l : Q3216) : (r.setTemperature u l).lop = r.lop := rfl
@[simp] theorem Regs.setTemperature_upt (r : Regs) (u l : Q3216) : (r.setTemperature u l).upt = u := rfl
@[simp] theorem Regs.setTemperature_lot (r : Regs) (u l : Q3216) : (r.setTemperature u l).lot = l := rfl
@[simp] theorem Regs.setTemperature_armed (r : Regs) (u l : Q3216) : (r.setTemperature u l).armed = true := rfl
@[simp] theorem Regs.setTemperature_cprev (r : Regs) (u l : Q3216) : (r.setTemperature u l).cprev = r.cprev := rfl
@[simp] theorem Regs.setTemperature_evf (r : Regs) (u l : Q3216) : (r.setTemperature u l).evf = r.evf := rfl

/-! ### `Regs.setEvents` -/

@[simp] theorem Regs.setEvents_cal (r : Regs) (c e : BitVec 4) : (r.setEvents c e).cal = r.cal := rfl
@[simp] theorem Regs.setEvents_calv (r : Regs) (c e : BitVec 4) : (r.setEvents c e).calv = r.calv := rfl
@[simp] theorem Regs.setEvents_tmp (r : Regs) (c e : BitVec 4) : (r.setEvents c e).tmp = r.tmp := rfl
@[simp] theorem Regs.setEvents_prs (r : Regs) (c e : BitVec 4) : (r.setEvents c e).prs = r.prs := rfl
@[simp] theorem Regs.setEvents_upp (r : Regs) (c e : BitVec 4) : (r.setEvents c e).upp = r.upp := rfl
@[simp] theorem Regs.setEvents_lop (r : Regs) (c e : BitVec 4) : (r.setEvents c e).lop = r.lop := rfl
@[simp] theorem Regs.setEvents_upt (r : Regs) (c e : BitVec 4) : (r.setEvents c e).upt = r.upt := rfl
@[simp] theorem Regs.setEvents_lot (r : Regs) (c e : BitVec 4) : (r.setEvents c e).lot = r.lot := rfl
@[simp] theorem Regs.setEvents_armed (r : Regs) (c e : BitVec 4) : (r.setEvents c e).armed = r.armed := rfl
@[simp] theorem Regs.setEvents_cprev (r : Regs) (c e : BitVec 4) : (r.setEvents c e).cprev = c := rfl
@[simp] theorem Regs.setEvents_evf (r : Regs) (c e : BitVec 4) : (r.setEvents c e).evf = e := rfl

/-! ### `Regs.setEvf` -/

@[simp] theorem Regs.setEvf_cal (r : Regs) (e : BitVec 4) : (r.setEvf e).cal = r.cal := rfl
@[simp] theorem Regs.setEvf_calv (r : Regs) (e : BitVec 4) : (r.setEvf e).calv = r.calv := rfl
@[simp] theorem Regs.setEvf_tmp (r : Regs) (e : BitVec 4) : (r.setEvf e).tmp = r.tmp := rfl
@[simp] theorem Regs.setEvf_prs (r : Regs) (e : BitVec 4) : (r.setEvf e).prs = r.prs := rfl
@[simp] theorem Regs.setEvf_upp (r : Regs) (e : BitVec 4) : (r.setEvf e).upp = r.upp := rfl
@[simp] theorem Regs.setEvf_lop (r : Regs) (e : BitVec 4) : (r.setEvf e).lop = r.lop := rfl
@[simp] theorem Regs.setEvf_upt (r : Regs) (e : BitVec 4) : (r.setEvf e).upt = r.upt := rfl
@[simp] theorem Regs.setEvf_lot (r : Regs) (e : BitVec 4) : (r.setEvf e).lot = r.lot := rfl
@[simp] theorem Regs.setEvf_armed (r : Regs) (e : BitVec 4) : (r.setEvf e).armed = r.armed := rfl
@[simp] theorem Regs.setEvf_cprev (r : Regs) (e : BitVec 4) : (r.setEvf e).cprev = r.cprev := rfl
@[simp] theorem Regs.setEvf_evf (r : Regs) (e : BitVec 4) : (r.setEvf e).evf = e := rfl

/-! ### Responses: only the outputs grow -/

@[simp] theorem respond_regs (st : Status) (payload : List Byte) (s : State) :
    (respond st payload s).regs = s.regs := rfl
@[simp] theorem respond_params (st : Status) (payload : List Byte) (s : State) :
    (respond st payload s).params = s.params := rfl
@[simp] theorem respond_rst (st : Status) (payload : List Byte) (s : State) :
    (respond st payload s).rst = s.rst := rfl
@[simp] theorem respond_inputs (st : Status) (payload : List Byte) (s : State) :
    (respond st payload s).inputs = s.inputs := rfl
@[simp] theorem respond_out (st : Status) (payload : List Byte) (s : State) :
    (respond st payload s).out = s.out ++ [{ rsp := st.code :: payload, hit := 0, edge := 0 }] := rfl
@[simp] theorem respondPulsing_regs (payload : List Byte) (hit edge : BitVec 4) (s : State) :
    (respondPulsing payload hit edge s).regs = s.regs := rfl
@[simp] theorem respondPulsing_params (payload : List Byte) (hit edge : BitVec 4) (s : State) :
    (respondPulsing payload hit edge s).params = s.params := rfl
@[simp] theorem respondPulsing_rst (payload : List Byte) (hit edge : BitVec 4) (s : State) :
    (respondPulsing payload hit edge s).rst = s.rst := rfl
@[simp] theorem respondPulsing_inputs (payload : List Byte) (hit edge : BitVec 4) (s : State) :
    (respondPulsing payload hit edge s).inputs = s.inputs := rfl
@[simp] theorem respondPulsing_out (payload : List Byte) (hit edge : BitVec 4) (s : State) :
    (respondPulsing payload hit edge s).out = s.out ++ [{ rsp := Status.ok.code :: payload, hit := hit, edge := edge }] := rfl

/-! ### `holdReset`: only the registers can change -/

@[simp] theorem holdReset_params (s : State) : (holdReset s).params = s.params := by unfold holdReset; split <;> rfl
@[simp] theorem holdReset_rst (s : State) : (holdReset s).rst = s.rst := by unfold holdReset; split <;> rfl
@[simp] theorem holdReset_inputs (s : State) : (holdReset s).inputs = s.inputs := by unfold holdReset; split <;> rfl
@[simp] theorem holdReset_out (s : State) : (holdReset s).out = s.out := by unfold holdReset; split <;> rfl

theorem holdReset_released {s : State} (h : s.rst = false) : holdReset s = s := by simp [holdReset, h]
theorem holdReset_asserted {s : State} (h : s.rst = true) : holdReset s = s.setRegs Regs.reset := by simp [holdReset, h]
theorem holdReset_regs (s : State) : (holdReset s).regs = if s.rst then Regs.reset else s.regs := by
  unfold holdReset; split <;> rfl
theorem holdReset_setInputs (s : State) (xs : List Input) : holdReset (s.setInputs xs) = (holdReset s).setInputs xs := by
  cases h : s.rst
  · rw [holdReset_released h, holdReset_released (s := s.setInputs xs) h]
  · rw [holdReset_asserted h, holdReset_asserted (s := s.setInputs xs) h]; rfl

/-! ### The reset values (R24) -/

@[simp] theorem Regs.reset_cal : Regs.reset.cal = Coeffs.zero := rfl
@[simp] theorem Regs.reset_calv : Regs.reset.calv = false := rfl
@[simp] theorem Regs.reset_tmp : Regs.reset.tmp = 0 := rfl
@[simp] theorem Regs.reset_prs : Regs.reset.prs = 0 := rfl
@[simp] theorem Regs.reset_armed : Regs.reset.armed = false := rfl
@[simp] theorem Regs.reset_cprev : Regs.reset.cprev = 0 := rfl
@[simp] theorem Regs.reset_evf : Regs.reset.evf = 0 := rfl
@[simp] theorem State.reset_regs : State.reset.regs = Regs.reset := rfl
@[simp] theorem State.reset_params : State.reset.params = Params.default := rfl
@[simp] theorem State.reset_rst : State.reset.rst = false := rfl
@[simp] theorem State.reset_inputs : State.reset.inputs = [] := rfl
@[simp] theorem State.reset_out : State.reset.out = [] := rfl

end Machine
end Sys2Proof
end

