-- ==== Sys2Proof/Laws/Exec.lean ====
section
/-! SUPPORT. What each shared operation and each meaning can do, once (equations), and the inversion of `exec` and
`step`: every case a next state can come from. -/

namespace Sys2Proof
namespace Machine

/-! ### The shared operations -/

theorem raiseIll_next {s t : State} (h : raiseIll s = .next t) : t = respond .ill [] s := by
  simpa [raiseIll] using h.symm

theorem answerLocked_next {s t : State} (h : answerLocked s = .next t) : t = respond .locked [] s := by
  simpa [answerLocked] using h.symm

theorem takeReset_next {s t : State} (h : takeReset s = .next t) : t = (s.setRegs Regs.reset).setRst true := by
  simpa [takeReset] using h.symm

theorem releaseReset_next {s t : State} (h : releaseReset s = .next t) : t = (holdReset s).setRst false := by
  simpa [releaseReset] using h.symm

theorem thenHold_next {o : Host.Outcome State Fault Refusal} {t : State} :
    thenHold o = .next t ↔ ∃ u, o = .next u ∧ t = holdReset u := by
  cases o <;> simp [thenHold, eq_comm]

theorem idle_next {s t : State} (h : idle s = .next t) : t = s := by
  simpa [idle] using h.symm

/-! ### The meanings, case by case -/

theorem execDec_legal {w : BitVec 5} {v : Raw24} (s : State) (h : decOperandsLegal w v = true) :
    execDec w v s = .next (respond .ok (patternBytes 4 (tc 32 (dec v.toNat w.toNat))) s) := by
  simp only [decOperandsLegal, Bool.and_eq_true, decide_eq_true_eq] at h
  rw [execDec, if_neg (by omega), if_neg (by omega)]

theorem execDec_illegal {w : BitVec 5} {v : Raw24} (s : State) (h : decOperandsLegal w v = false) :
    execDec w v s = raiseIll s := by
  rw [execDec]
  split
  · rfl
  · rename_i h1
    rw [if_pos]
    by_contra h2
    have : decOperandsLegal w v = true := by
      simp only [decOperandsLegal, Bool.and_eq_true, decide_eq_true_eq]
      omega
    simp [this] at h

theorem execLdcal_load {s : State} (block : CalBlock) (h : s.regs.calv = false) :
    execLdcal block s = .next (respond .ok [] (s.setRegs (s.regs.loadCal (unpackCal block)))) := by
  simp [execLdcal, h]

theorem execLdcal_locked {s : State} (block : CalBlock) (h : s.regs.calv = true) :
    execLdcal block s = answerLocked s := by
  simp [execLdcal, h]

theorem execCmp_armed {s : State} (h : s.regs.armed = true) : execCmp s = .next (compareArmed s) := by
  simp [execCmp, h]

theorem execCmp_idle {s : State} (h : s.regs.armed = false) : execCmp s = .next (respond .ok [0x00] s) := by
  simp [execCmp, h]

theorem execRd_some {n : BitVec 8} {reg : RegName} (s : State) (h : regOf n = some reg) :
    execRd n s = .next (respond .ok (patternBytes 6 (readReg s.params s.regs reg)) s) := by
  simp [execRd, h]

theorem execRd_none {n : BitVec 8} (s : State) (h : regOf n = none) : execRd n s = raiseIll s := by
  simp [execRd, h]

/-! ### Inversion -/

/-- Every way the registers can change in one operation (R36): nothing, or one operation's write. -/
theorem exec_regs_cases {i : Instr} {s t : State} (h : exec i s = .next t) :
    t.regs = s.regs
    ∨ (∃ b, i = .ldcal b ∧ s.regs.calv = false ∧ t.regs = s.regs.loadCal (unpackCal b))
    ∨ (∃ uT uP, i = .sample uT uP ∧ t.regs =
        s.regs.setReadings (sampledTmp s.params s.regs.cal uT) (sampledPrs s.params s.regs.cal uT uP))
    ∨ (∃ u l, i = .setthrp u l ∧ t.regs = s.regs.setPressure u l)
    ∨ (∃ u l, i = .setthrt u l ∧ t.regs = s.regs.setTemperature u l)
    ∨ (i = .cmp ∧ s.regs.armed = true ∧ t.regs = s.regs.setEvents (condBits s.params s.regs)
        (evfAfterCmp s.regs.evf (edgeOf (condBits s.params s.regs) s.regs.cprev)))
    ∨ (∃ m, i = .evclr m ∧ t.regs = s.regs.setEvf (evfAfterClear s.regs.evf m)) := by
  cases i with
  | dec w v =>
    left
    simp only [exec, execDec] at h
    split at h
    · rw [raiseIll_next h, respond_regs]
    · split at h
      · rw [raiseIll_next h, respond_regs]
      · cases h; rfl
  | ldcal b =>
    cases hc : s.regs.calv with
    | true => left; simp only [exec, execLdcal_locked b hc] at h; rw [answerLocked_next h, respond_regs]
    | false =>
      simp only [exec, execLdcal_load b hc] at h
      cases h
      exact .inr (.inl ⟨b, rfl, rfl, rfl⟩)
  | sample uT uP => cases h; exact .inr (.inr (.inl ⟨uT, uP, rfl, rfl⟩))
  | setthrp u l => cases h; exact .inr (.inr (.inr (.inl ⟨u, l, rfl, rfl⟩)))
  | setthrt u l => cases h; exact .inr (.inr (.inr (.inr (.inl ⟨u, l, rfl, rfl⟩))))
  | cmp =>
    cases hc : s.regs.armed with
    | true =>
      simp only [exec, execCmp_armed hc] at h
      cases h
      exact .inr (.inr (.inr (.inr (.inr (.inl ⟨rfl, rfl, rfl⟩)))))
    | false => left; simp only [exec, execCmp_idle hc] at h; cases h; rfl
  | evclr m => cases h; exact .inr (.inr (.inr (.inr (.inr (.inr ⟨m, rfl, rfl⟩)))))
  | rd n =>
    left
    simp only [exec, execRd] at h
    split at h
    · rw [raiseIll_next h, respond_regs]
    · cases h; rfl

/-- Every output one operation can give (R61): the registers stand aside here, the pulses are CMP's alone. -/
theorem exec_out_cases {i : Instr} {s t : State} (h : exec i s = .next t) :
    t.params = s.params ∧ t.inputs = s.inputs ∧ ∃ o : Output, t.out = s.out ++ [o] ∧
      ((o = { rsp := [0x01], hit := 0, edge := 0 } ∧ i.wellFormed = false)
      ∨ (o = { rsp := [0x02], hit := 0, edge := 0 } ∧ (∃ b, i = .ldcal b) ∧ s.regs.calv = true)
      ∨ (o.rsp = [0x00] ∧ o.hit = 0 ∧ o.edge = 0)
      ∨ ((∃ x, o.rsp = 0x00 :: patternBytes 4 x) ∧ o.hit = 0 ∧ o.edge = 0)
      ∨ ((∃ x, o.rsp = 0x00 :: patternBytes 6 x) ∧ o.hit = 0 ∧ o.edge = 0)
      ∨ (o = { rsp := [0x00, 0x00], hit := 0, edge := 0 } ∧ i = .cmp ∧ s.regs.armed = false)
      ∨ (i = .cmp ∧ s.regs.armed = true ∧ o.hit = condBits s.params s.regs ∧ o.edge = edgeOf o.hit s.regs.cprev
          ∧ o.rsp = [0x00, cmpPayload o.edge o.hit])) := by
  cases i with
  | dec w v =>
    cases hl : decOperandsLegal w v with
    | true =>
      simp only [exec, execDec_legal s hl] at h
      cases h
      exact ⟨rfl, rfl, _, rfl, .inr (.inr (.inr (.inl ⟨⟨_, rfl⟩, rfl, rfl⟩)))⟩
    | false =>
      simp only [exec, execDec_illegal s hl] at h
      cases raiseIll_next h
      exact ⟨rfl, rfl, _, rfl, .inl ⟨rfl, hl⟩⟩
  | ldcal b =>
    cases hc : s.regs.calv with
    | true =>
      simp only [exec, execLdcal_locked b hc] at h
      cases answerLocked_next h
      exact ⟨rfl, rfl, _, rfl, .inr (.inl ⟨rfl, ⟨b, rfl⟩, rfl⟩)⟩
    | false =>
      simp only [exec, execLdcal_load b hc] at h
      cases h
      exact ⟨rfl, rfl, _, rfl, .inr (.inr (.inl ⟨rfl, rfl, rfl⟩))⟩
  | sample uT uP => cases h; exact ⟨rfl, rfl, _, rfl, .inr (.inr (.inl ⟨rfl, rfl, rfl⟩))⟩
  | setthrp u l => cases h; exact ⟨rfl, rfl, _, rfl, .inr (.inr (.inl ⟨rfl, rfl, rfl⟩))⟩
  | setthrt u l => cases h; exact ⟨rfl, rfl, _, rfl, .inr (.inr (.inl ⟨rfl, rfl, rfl⟩))⟩
  | cmp =>
    cases hc : s.regs.armed with
    | true =>
      simp only [exec, execCmp_armed hc] at h
      cases h
      exact ⟨rfl, rfl, _, rfl, .inr (.inr (.inr (.inr (.inr (.inr ⟨rfl, rfl, rfl, rfl, rfl⟩)))))⟩
    | false =>
      simp only [exec, execCmp_idle hc] at h
      cases h
      exact ⟨rfl, rfl, _, rfl, .inr (.inr (.inr (.inr (.inr (.inl ⟨rfl, rfl, rfl⟩)))))⟩
  | evclr m => cases h; exact ⟨rfl, rfl, _, rfl, .inr (.inr (.inl ⟨rfl, rfl, rfl⟩))⟩
  | rd n =>
    cases hr : regOf n with
    | none =>
      simp only [exec, execRd_none s hr] at h
      cases raiseIll_next h
      refine ⟨rfl, rfl, _, rfl, .inl ⟨rfl, ?_⟩⟩
      simp only [Instr.wellFormed, registerListed]
      unfold regOf at hr
      split at hr <;> simp_all
      omega
    | some reg =>
      simp only [exec, execRd_some s hr] at h
      cases h
      exact ⟨rfl, rfl, _, rfl, .inr (.inr (.inr (.inr (.inl ⟨⟨_, rfl⟩, rfl, rfl⟩))))⟩

/-- Every way a step can come to a next state: nothing waiting, `rst_i` asserted or released, an operation, or an illegal
packet, the last two in the reset state while `rst_i` is asserted. -/
theorem step_cases {s t : State} (h : step s = .next t) :
    (s.inputs = [] ∧ t = s)
    ∨ (∃ rest, s.inputs = .reset :: rest ∧ t = ((s.setInputs rest).setRegs Regs.reset).setRst true)
    ∨ (∃ rest, s.inputs = .release :: rest ∧ t = (holdReset (s.setInputs rest)).setRst false)
    ∨ (∃ who p rest i u, s.inputs = .command who p :: rest ∧ decode p = .ok i
        ∧ exec i (holdReset (s.setInputs rest)) = .next u ∧ t = holdReset u)
    ∨ (∃ who p rest e, s.inputs = .command who p :: rest ∧ decode p = .error e
        ∧ t = respond .ill [] (holdReset (s.setInputs rest))) := by
  unfold step at h
  split at h
  · rename_i hi; exact .inl ⟨hi, idle_next h⟩
  · rename_i rest hi; exact .inr (.inl ⟨rest, hi, takeReset_next h⟩)
  · rename_i rest hi; exact .inr (.inr (.inl ⟨rest, hi, releaseReset_next h⟩))
  · rename_i who p rest hi
    obtain ⟨u, hu, rfl⟩ := thenHold_next.mp h
    unfold runPacket at hu
    split at hu
    · rename_i i hd; exact .inr (.inr (.inr (.inl ⟨who, p, rest, i, u, hi, hd, hu, rfl⟩)))
    · rename_i e hd
      refine .inr (.inr (.inr (.inr ⟨who, p, rest, e, hi, hd, ?_⟩)))
      rw [raiseIll_next hu]
      cases hr : s.rst
      · rw [holdReset_released]; simpa using hr
      · rw [holdReset_asserted (s := respond _ _ _) (by simpa using hr),
          holdReset_asserted (s := s.setInputs rest) hr]
        rfl

/-! ### Packets and runs -/

theorem runPacket_ok {p : Packet} {i : Instr} (s : State) (h : decode p = .ok i) : runPacket p s = exec i s := by
  simp [runPacket, h]

theorem runPacket_error {p : Packet} {e : DecodeError} (s : State) (h : decode p = .error e) :
    runPacket p s = raiseIll s := by
  simp [runPacket, h]

/-- No instruction touches the level of `rst_i`. -/
theorem exec_rst {i : Instr} {s t : State} (h : exec i s = .next t) : t.rst = s.rst := by
  cases i
  case dec w v => simp only [exec, execDec] at h; split_ifs at h <;> cases h <;> rfl
  case ldcal b => simp only [exec, execLdcal] at h; split at h <;> cases h <;> rfl
  case cmp => simp only [exec, execCmp] at h; split at h <;> cases h <;> rfl
  case rd n =>
    simp only [exec] at h
    cases hr : regOf n with
    | none => rw [execRd_none _ hr] at h; cases h; rfl
    | some reg => rw [execRd_some _ hr] at h; cases h; rfl
  all_goals (cases h; rfl)

theorem runPacket_rst {p : Packet} {s t : State} (h : runPacket p s = .next t) : t.rst = s.rst := by
  unfold runPacket at h
  split at h
  · exact exec_rst h
  · rw [raiseIll_next h]; rfl

/-- With `rst_i` released a frame is just run. -/
theorem acceptPacket_released {s : State} (p : Packet) (h : s.rst = false) : acceptPacket p s = runPacket p s := by
  rw [acceptPacket, holdReset_released h]
  cases hr : runPacket p s with
  | next t => rw [thenHold, holdReset_released ((runPacket_rst hr).trans h)]
  | fault r => rfl
  | refused r => rfl

/-- With `rst_i` asserted a frame is run in the reset state and leaves the reset state. -/
theorem acceptPacket_asserted {s t : State} {p : Packet} (h : s.rst = true) :
    acceptPacket p s = .next t ↔ ∃ u, runPacket p (s.setRegs Regs.reset) = .next u ∧ t = u.setRegs Regs.reset := by
  rw [acceptPacket, holdReset_asserted h, thenHold_next]
  constructor <;> rintro ⟨u, hu, rfl⟩ <;> refine ⟨u, hu, ?_⟩ <;> simp [holdReset_asserted ((runPacket_rst hu).trans h)]

/-- A packet whose length is not its opcode's does not decode (R47). -/
theorem decode_wrongLength {o : Opcode} {args : List Byte} (h : args.length + 1 ≠ o.len) :
    decode (o.code :: args) = .error .wrongLength := by
  simp [decode, h]

/-- One more step in front of a run, on any machine. -/
theorem coreRun_succ (M : Host.Core) (k : Nat) (s t : M.State) :
    M.run (k + 1) s = .next t ↔ ∃ u, M.step s = .next u ∧ M.run k u = .next t := by
  rw [Host.Core.run]
  cases M.step s <;> simp

/-- One more step in front of a run. -/
theorem run_succ {k : Nat} {s t : State} :
    Sys2Proof.core.run (k + 1) s = .next t ↔ ∃ u, step s = .next u ∧ Sys2Proof.core.run k u = .next t :=
  coreRun_succ Sys2Proof.core k s t

@[simp] theorem run_zero (s : State) : Sys2Proof.core.run 0 s = .next s := rfl

end Machine
end Sys2Proof
end

