-- ==== Sys2Proof/Laws/Agents.lean ====
section
/-! SUPPORT. The equations of the platform's moves, which claims about the agents cite instead of unfolding them, and
that a step does not look beyond its own input. -/

namespace Sys2Proof
namespace Machine

/-- A move is at most one packet, or a reset and its release. -/
theorem Move.inputs_length (m : Move) : m.inputs.length ≤ 2 := by
  rcases m with _ | (⟨_ | _⟩ | _ | _ | _ | _ | _ | _ | _) | (_ | _) <;>
    exact Nat.le_of_ble_eq_true rfl

theorem State.take_eq_some {s t : State} {i : Input} :
    s.take i = some t ↔ step (s.setInputs (i :: s.inputs)) = .next t := by
  unfold State.take
  split <;> simp_all

@[simp] theorem State.takeAll_nil (s : State) : State.takeAll [] s = some s := rfl
@[simp] theorem State.takeAll_cons (i : Input) (is : List Input) (s : State) :
    State.takeAll (i :: is) s = (s.take i).bind (State.takeAll is) := rfl

@[simp] theorem State.takeAll_one (i : Input) (s : State) : State.takeAll [i] s = s.take i := by
  cases h : s.take i <;> simp [h]

@[simp] theorem traffic_nil : traffic [] = [] := rfl
@[simp] theorem traffic_cons (m : Move) (ms : List Move) : traffic (m :: ms) = m.inputs ++ traffic ms := rfl

@[simp] theorem Platform.run_nil (p : Platform) : Platform.run [] p = some p := rfl
@[simp] theorem Platform.run_cons (m : Move) (ms : List Move) (p : Platform) :
    Platform.run (m :: ms) p = (p.move m).bind (Platform.run ms) := rfl

/-- Everything a move can do. -/
theorem Platform.move_cases {p q : Platform} {m : Move} (h : p.move m = some q) :
    State.takeAll m.inputs p.block = some q.block
    ∧ ((m = .reset ∧ q.host = HostAgent.boot ∧ q.monitor = .absent)
      ∨ (∃ k, m = .host k ∧ p.host.after k = some q.host ∧ q.monitor = p.monitor.watch p.block q.block)
      ∨ (∃ k, m = .monitor k ∧ q.host = p.host ∧ p.monitor.after k = some q.monitor)) := by
  simp only [Platform.move, Option.bind_eq_some_iff] at h
  obtain ⟨block, hb, h⟩ := h
  rcases m with _ | k | k
  · simp only [Option.some.injEq] at h; subst h; exact ⟨hb, .inl ⟨rfl, rfl, rfl⟩⟩
  · simp only [Option.map_eq_some_iff] at h
    obtain ⟨host, hh, rfl⟩ := h
    exact ⟨hb, .inr (.inl ⟨k, rfl, hh, rfl⟩)⟩
  · simp only [Option.map_eq_some_iff] at h
    obtain ⟨monitor, hm, rfl⟩ := h
    exact ⟨hb, .inr (.inr ⟨k, rfl, rfl, hm⟩)⟩

theorem framesOf_append (who : Requester) (a b : List Input) :
    framesOf who (a ++ b) = framesOf who a ++ framesOf who b := by
  induction a with
  | nil => rfl
  | cons x a ih =>
    rcases x with _ | _ | ⟨sender, p⟩
    · simpa [framesOf] using ih
    · simpa [framesOf] using ih
    · by_cases h : sender = who <;> simp [framesOf, h, ih]

@[simp] theorem framesOf_host_host (k : HostMove) : framesOf .host (Move.host k).inputs = k.commands := by
  rcases k with (_ | _) | _ | _ | _ | _ | _ | _ | _ <;> rfl
@[simp] theorem framesOf_monitor_host (k : HostMove) : framesOf .monitor (Move.host k).inputs = [] := by
  rcases k with (_ | _) | _ | _ | _ | _ | _ | _ | _ <;> rfl
@[simp] theorem framesOf_host_monitor (k : MonitorMove) : framesOf .host (Move.monitor k).inputs = [] := by
  rcases k with _ | _ <;> rfl
@[simp] theorem framesOf_monitor_monitor (k : MonitorMove) : framesOf .monitor (Move.monitor k).inputs = k.commands := by
  rcases k with _ | _ <;> rfl

/-! ### Runs end to end, and the moves of an execution -/

theorem Platform.run_append (ms ns : List Move) (p : Platform) :
    Platform.run (ms ++ ns) p = (Platform.run ms p).bind (Platform.run ns) := by
  induction ms generalizing p with
  | nil => simp
  | cons m ms ih => cases h : p.move m <;> simp [h, ih]

@[simp] theorem movesBefore_zero (moves : Nat → Option Move) : movesBefore moves 0 = [] := rfl
@[simp] theorem movesBefore_succ (moves : Nat → Option Move) (n : Nat) :
    movesBefore moves (n + 1) = movesBefore moves n ++ (moves n).toList := rfl

theorem IsExecution.pause {states : Nat → Platform} {moves : Nat → Option Move} {n : Nat}
    (h : IsExecution states moves) (hn : moves n = none) : states (n + 1) = states n := by
  have := h n; rwa [hn] at this

theorem IsExecution.move {states : Nat → Platform} {moves : Nat → Option Move} {n : Nat} {m : Move}
    (h : IsExecution states moves) (hn : moves n = some m) : (states n).move m = some (states (n + 1)) := by
  have := h n; rwa [hn] at this

/-- What a time does to MONITOR: nothing, its own move, a reset, or a move of HOST that it watches. -/
theorem IsExecution.monitor_cases {states : Nat → Platform} {moves : Nat → Option Move}
    (h : IsExecution states moves) (n : Nat) :
    (moves n = none ∧ (states (n + 1)).monitor = (states n).monitor)
    ∨ (∃ k, moves n = some (.monitor k) ∧ (states n).monitor.after k = some (states (n + 1)).monitor)
    ∨ (moves n = some .reset ∧ (states (n + 1)).monitor = .absent)
    ∨ (∃ k, moves n = some (.host k)
      ∧ (states (n + 1)).monitor = (states n).monitor.watch (states n).block (states (n + 1)).block) := by
  cases hn : moves n with
  | none => exact .inl ⟨rfl, by rw [h.pause hn]⟩
  | some m =>
    obtain ⟨-, ⟨rfl, -, hm⟩ | ⟨k, rfl, -, hm⟩ | ⟨k, rfl, -, hm⟩⟩ := Platform.move_cases (h.move hn)
    · exact .inr (.inr (.inl ⟨rfl, hm⟩))
    · exact .inr (.inr (.inr ⟨k, rfl, hm⟩))
    · exact .inr (.inl ⟨k, rfl, hm⟩)

/-! ### A step looks at its own input only -/

theorem exec_setInputs {i : Instr} {s t : State} (xs : List Input) (h : exec i s = .next t) :
    exec i (s.setInputs xs) = .next (t.setInputs xs) := by
  cases i
  case dec w v => simp only [exec, execDec] at h ⊢; split_ifs at h ⊢ <;> cases h <;> rfl
  case ldcal b => simp only [exec, execLdcal, State.setInputs_regs] at h ⊢; split at h <;> cases h <;> simp_all <;> rfl
  case cmp => simp only [exec, execCmp, State.setInputs_regs] at h ⊢; split at h <;> cases h <;> simp_all <;> rfl
  case rd n =>
    simp only [exec] at h ⊢
    cases hr : regOf n with
    | none => rw [execRd_none _ hr] at h ⊢; cases h; rfl
    | some reg => rw [execRd_some _ hr] at h ⊢; cases h; rfl
  all_goals (cases h; rfl)

theorem step_setInputs {x : Input} {s t : State} {xs : List Input} (ys : List Input)
    (h : step (s.setInputs (x :: xs)) = .next t) : step (s.setInputs (x :: ys)) = .next (t.setInputs ys) := by
  rcases x with _ | _ | ⟨who, p⟩
  · cases h; rfl
  · change releaseReset (s.setInputs xs) = _ at h
    change releaseReset (s.setInputs ys) = _
    rw [releaseReset_next h, releaseReset, holdReset_setInputs, holdReset_setInputs]; rfl
  · change thenHold (runPacket p (holdReset (s.setInputs xs))) = _ at h
    change thenHold (runPacket p (holdReset (s.setInputs ys))) = _
    obtain ⟨u, hu, rfl⟩ := thenHold_next.mp h
    rw [← holdReset_setInputs]
    refine thenHold_next.mpr ⟨u.setInputs ys, ?_, rfl⟩
    rw [holdReset_setInputs] at hu ⊢
    cases hd : decode p with
    | ok i =>
      rw [runPacket_ok _ hd] at hu ⊢
      exact exec_setInputs (s := (holdReset s).setInputs xs) ys hu
    | error e =>
      rw [runPacket_error _ hd] at hu ⊢
      cases hu
      rfl

/-- No instruction touches the inputs still to come. -/
theorem exec_inputs {i : Instr} {s t : State} (h : exec i s = .next t) : t.inputs = s.inputs := by
  have e := exec_setInputs s.inputs h
  rw [show s.setInputs s.inputs = s from rfl, h] at e
  injection e with e
  rw [e]; rfl

/-- A step takes exactly its own input. -/
theorem step_inputs {x : Input} {xs : List Input} {s t : State} (hx : s.inputs = x :: xs) (h : step s = .next t) :
    t.inputs = xs := by
  obtain ⟨h0, _⟩ | ⟨r, h0, rfl⟩ | ⟨r, h0, rfl⟩ | ⟨w, p, r, i, u, h0, _, h1, rfl⟩ | ⟨w, p, r, e, h0, _, rfl⟩ := step_cases h <;>
    rw [hx] at h0
  · cases h0
  · cases h0; rfl
  · cases h0; simp
  · cases h0; simpa using exec_inputs h1
  · cases h0; simp

end Machine
end Sys2Proof
end

