-- ==== Sys2Proof/Laws/Calibration.lean ====
section
/-! SUPPORT. The calibration extraction as bit slices of the 144-bit string (R34), and the packing as a sum of places
(R77). -/

namespace Sys2Proof
namespace Machine

theorem shiftLeft_or {x y n : Nat} (h : y < 2 ^ n) : x <<< n ||| y = x * 2 ^ n + y := by
  rw [Nat.shiftLeft_eq, Nat.mul_comm, ← Nat.two_pow_add_eq_or_of_lt h]

theorem append_toNat {w v : Nat} (x : BitVec w) (y : BitVec v) : (x ++ y).toNat = x.toNat * 2 ^ v + y.toNat := by
  rw [BitVec.toNat_append, shiftLeft_or y.isLt]

/-- The packed block as a number. -/
theorem packCal_toNat (c : Coeffs) : (packCal c).toNat =
    (((((((c.c0.toNat * 2 ^ 12 + c.c1.toNat) * 2 ^ 20 + c.c00.toNat) * 2 ^ 20 + c.c10.toNat) * 2 ^ 16
      + c.c01.toNat) * 2 ^ 16 + c.c11.toNat) * 2 ^ 16 + c.c20.toNat) * 2 ^ 16 + c.c21.toNat) * 2 ^ 16
      + c.c30.toNat := by
  have h : (packCal c).toNat = (c.c0 ++ c.c1 ++ c.c00 ++ c.c10 ++ c.c01 ++ c.c11 ++ c.c20 ++ c.c21 ++ c.c30 :
      BitVec (12 + 12 + 20 + 20 + 16 + 16 + 16 + 16 + 16)).toNat := rfl
  rw [h]
  simp only [append_toNat]

/-- R34: the nine fields are consecutive slices of the 144-bit string, first byte most significant. -/
theorem unpackCal_slices (b : CalBlock) : unpackCal b =
    { c0 := b.extractLsb' 132 12, c1 := b.extractLsb' 120 12, c00 := b.extractLsb' 100 20
      c10 := b.extractLsb' 80 20, c01 := b.extractLsb' 64 16, c11 := b.extractLsb' 48 16
      c20 := b.extractLsb' 32 16, c21 := b.extractLsb' 16 16, c30 := b.extractLsb' 0 16 } := by
  have l := calByte_lt b
  have l4 : ∀ k, calByte b k >>> 4 < 2 ^ 4 := fun k => by rw [Nat.shiftRight_eq_div_pow]; have := l k; omega
  have a4 : ∀ k, calByte b k &&& 0x0F = calByte b k % 16 := fun k => Nat.and_two_pow_sub_one_eq_mod _ 4
  have e0 : calU0 b = (b.extractLsb' 132 12).toNat := by
    rw [calU0, shiftLeft_or (l4 1)]
    simp only [Nat.shiftRight_eq_div_pow, calByte, BitVec.extractLsb'_toNat]; norm_num; omega
  have e1 : calU1 b = (b.extractLsb' 120 12).toNat := by
    rw [calU1, shiftLeft_or (l 2), a4]
    simp only [Nat.shiftRight_eq_div_pow, calByte, BitVec.extractLsb'_toNat]; norm_num; omega
  have e00 : calU00 b = (b.extractLsb' 100 20).toNat := by
    rw [calU00, Nat.or_assoc, shiftLeft_or (l4 5), shiftLeft_or (by have := l 4; have := l4 5; omega)]
    simp only [Nat.shiftRight_eq_div_pow, calByte, BitVec.extractLsb'_toNat]; norm_num; omega
  have e10 : calU10 b = (b.extractLsb' 80 20).toNat := by
    rw [calU10, Nat.or_assoc, shiftLeft_or (n := 8) (l 7), shiftLeft_or (n := 16) (by have := l 6; have := l 7; omega), a4]
    simp only [Nat.shiftRight_eq_div_pow, calByte, BitVec.extractLsb'_toNat]; norm_num; omega
  have two : ∀ k, k ≤ 16 → (calByte b k <<< 8) ||| calByte b (k + 1) = (b.extractLsb' (8 * (16 - k)) 16).toNat := by
    intro k hk
    rw [shiftLeft_or (l _)]
    simp only [Nat.shiftRight_eq_div_pow, calByte, BitVec.extractLsb'_toNat]
    interval_cases k <;> norm_num <;> omega
  simp only [unpackCal, e0, e1, e00, e10, calU01, calU11, calU20, calU21, calU30, two 8 (by omega), two 10 (by omega),
    two 12 (by omega), two 14 (by omega), two 16 (by omega), tc_dec (BitVec.isLt _), BitVec.ofNat_toNat,
    BitVec.setWidth_eq]

end Machine
end Sys2Proof
end

