-- ==== Sys2Proof/Laws/Flags.lean ====
section
/-! SUPPORT. The event vectors bit by bit: the conditions of R100, the edges and flags of R102 and R106. -/

namespace Sys2Proof
namespace Machine

theorem eventBits_bit0 (a b c d : Bool) : (eventBits a b c d).getLsbD 0 = a := by decide +revert
theorem eventBits_bit1 (a b c d : Bool) : (eventBits a b c d).getLsbD 1 = b := by decide +revert
theorem eventBits_bit2 (a b c d : Bool) : (eventBits a b c d).getLsbD 2 = c := by decide +revert
theorem eventBits_bit3 (a b c d : Bool) : (eventBits a b c d).getLsbD 3 = d := by decide +revert

theorem condBits_bit0 (p : Params) (r : Regs) : (condBits p r).getLsbD 0 = decide (r.upp.toInt ≤ r.prs.toInt) :=
  eventBits_bit0 ..
theorem condBits_bit1 (p : Params) (r : Regs) : (condBits p r).getLsbD 1 = decide (r.prs.toInt ≤ r.lop.toInt) :=
  eventBits_bit1 ..
theorem condBits_bit2 (p : Params) (r : Regs) :
    (condBits p r).getLsbD 2 = decide ((if p.parity then r.upp else r.upt).toInt ≤ r.tmp.toInt) :=
  eventBits_bit2 ..
theorem condBits_bit3 (p : Params) (r : Regs) :
    (condBits p r).getLsbD 3 = decide (r.tmp.toInt ≤ (if p.parity then r.lop else r.lot).toInt) :=
  eventBits_bit3 ..

theorem edgeOf_bit (hit cprev : BitVec 4) (i : Nat) :
    (edgeOf hit cprev).getLsbD i = (hit.getLsbD i && !cprev.getLsbD i) := by
  by_cases h : i < 4
  · simp [edgeOf, h]
  · simp [edgeOf, BitVec.getLsbD_of_ge _ _ (Nat.le_of_not_lt h)]

theorem evfAfterCmp_bit (evf edge : BitVec 4) (i : Nat) :
    (evfAfterCmp evf edge).getLsbD i = (evf.getLsbD i || edge.getLsbD i) := by
  simp [evfAfterCmp]

theorem evfAfterClear_bit (evf m : BitVec 4) (i : Nat) :
    (evfAfterClear evf m).getLsbD i = (evf.getLsbD i && !m.getLsbD i) :=
  edgeOf_bit evf m i

end Machine
end Sys2Proof
end

