-- ==== Sys2Proof/Laws/PerInstr.lean ====
section
/-! SUPPORT. A statement made per instruction, one lemma per constructor of Instr. -/

namespace Sys2Proof
namespace Laws
namespace EncodeShape

/-- R46, R47: the packet of an instruction starts with its opcode byte and has exactly the opcode's length. -/
def Statement (i : Instr) : Prop :=
  (encode i).head? = some i.opcode.code ∧ (encode i).length = i.opcode.len

theorem dec (w : BitVec 5) (v : Raw24) : Statement (.dec w v) := ⟨rfl, encodeOperands_length (.dec w v)⟩
theorem ldcal (block : CalBlock) : Statement (.ldcal block) := ⟨rfl, encodeOperands_length (.ldcal block)⟩
theorem sample (uT uP : Raw24) : Statement (.sample uT uP) := ⟨rfl, encodeOperands_length (.sample uT uP)⟩
theorem setthrp (upper lower : Q3216) : Statement (.setthrp upper lower) :=
  ⟨rfl, encodeOperands_length (.setthrp upper lower)⟩
theorem setthrt (upper lower : Q3216) : Statement (.setthrt upper lower) :=
  ⟨rfl, encodeOperands_length (.setthrt upper lower)⟩
theorem cmp : Statement .cmp := ⟨rfl, encodeOperands_length .cmp⟩
theorem evclr (m : BitVec 4) : Statement (.evclr m) := ⟨rfl, encodeOperands_length (.evclr m)⟩
theorem rd (n : BitVec 8) : Statement (.rd n) := ⟨rfl, encodeOperands_length (.rd n)⟩

end EncodeShape
end Laws
end Sys2Proof
end

