-- ==== Sys2Proof/Laws/Sample.lean ====
section
/-! SUPPORT. The integer evaluator against the exact one: floors, bounds and signs, in the form the statements about
SAMPLE and the display use them (R86, R87, R91). -/

namespace Sys2Proof

theorem Params.scale_pos (p : Params) (i : Nat) (h : i < 8) : 0 < p.scale[i] := by
  have hl := p.legal
  simp only [Config.legalScale, Bool.and_eq_true, List.all_eq_true, decide_eq_true_eq, Vector.mem_toList_iff] at hl
  exact hl.1.1 _ (Vector.getElem_mem h)

theorem Params.kt_pos (p : Params) : 0 < p.kt := p.scale_pos 0 (by omega)

theorem Params.kp_pos (p : Params) : 0 < p.kp := p.scale_pos 1 (by omega)

namespace Machine

theorem ediv_eq_floor (a : Int) (b : Nat) : a / b = ⌊(a : ℚ) / b⌋ := (Rat.floor_intCast_div_natCast a b).symm

/-! ### The exact value of each polynomial as one fraction -/

theorem tExact_eq_div {kt : Nat} (c : Coeffs) (rawT : Int) (h : 0 < kt) :
    tExact kt c rawT * 65536 = ((tempNum kt c rawT * 32768 : Int) : ℚ) / kt := by
  have hk : (kt : ℚ) ≠ 0 := by positivity
  simp only [tempNum, tExact, normalised]
  push_cast
  field_simp
  ring

theorem pExact_eq_div {kt kp : Nat} (c : Coeffs) (rawT rawP : Int) (h0 : 0 < kt) (h1 : 0 < kp) :
    pExact kt kp c rawT rawP * 65536
      = ((presNum kt kp c rawT rawP * 65536 : Int) : ℚ) / ((kp ^ 3 * kt : Nat) : ℚ) := by
  have hk : (kt : ℚ) ≠ 0 := by positivity
  have hp : (kp : ℚ) ≠ 0 := by positivity
  simp only [presNum, pExact, normalised]
  push_cast
  field_simp
  ring

theorem presDen_eq_cast (kt kp : Nat) : presDen kt kp = ((kp ^ 3 * kt : Nat) : Int) := by simp [presDen]

/-! ### Bounds of the ingredients (R11, R80) -/

theorem abs_toInt_le {w : Nat} (x : BitVec w) : |(x.toInt : ℚ)| ≤ 2 ^ (w - 1) := by
  have h0 := BitVec.le_toInt x
  have h1 := BitVec.toInt_lt (x := x)
  rw [abs_le]
  constructor
  · have : ((-2 ^ (w - 1) : Int) : ℚ) ≤ (x.toInt : ℚ) := by exact_mod_cast h0
    simpa using this
  · have : (x.toInt : ℚ) ≤ ((2 ^ (w - 1) : Int) : ℚ) := by exact_mod_cast h1.le
    simpa using this

theorem abs_normalised_le (u : Raw24) (k : Nat) : |normalised (rawCode u) k| ≤ normalised (2 ^ 23) k := by
  have h := abs_toInt_le u
  rw [rawCode_eq]
  simp only [normalised, abs_div, Nat.abs_cast]
  gcongr
  push_cast
  exact h

theorem normalised_nonneg (k : Nat) : 0 ≤ normalised (2 ^ 23) k := by
  unfold normalised; positivity

/-- The least product of a coefficient and a raw code is above `-2^(w-1) * 2^23`, because two's complement has no
positive partner for its most negative value. -/
theorem mul_raw_lower {w : Nat} (hw : 1 ≤ w) (hw' : w ≤ 24) (x : BitVec w) (u : Raw24) :
    -(2 ^ (w - 1) * 2 ^ 23) + 2 ^ (w - 1) ≤ (x.toInt : ℚ) * (rawCode u : ℚ) := by
  have x0 := BitVec.le_toInt x
  have x1 := BitVec.toInt_lt (x := x)
  have ⟨u0, u1⟩ := rawCode_bounds u
  have hM : (1 : Int) ≤ 2 ^ (w - 1) := one_le_pow₀ (by norm_num)
  have hM' : (2 : Int) ^ (w - 1) ≤ 2 ^ 23 := pow_le_pow_right₀ (by norm_num) (by omega)
  have key : -((2 : Int) ^ (w - 1) * 2 ^ 23) + 2 ^ (w - 1) ≤ x.toInt * rawCode u := by
    generalize (2 : Int) ^ (w - 1) = M at *
    generalize x.toInt = a at *
    generalize rawCode u = b at *
    by_cases ha : 0 ≤ a <;> by_cases hb : 0 ≤ b <;> nlinarith
  exact_mod_cast key

/-! ### Lower ends: the floor never reaches `-2^47` (R91, R25) -/

theorem tExact_gt {kt : Nat} (c : Coeffs) (uT : Raw24) (h : 0 < kt) :
    -tBound kt + 2048 / kt ≤ tExact kt c (rawCode uT) := by
  have hk : (0 : ℚ) < kt := by positivity
  have h0 := abs_le.1 (abs_toInt_le c.c0)
  have h1 := mul_raw_lower (by omega) (by omega) c.c1 uT
  norm_num at h0 h1
  simp only [tExact, tBound, normalised]
  have e : (c.c1.toInt : ℚ) * ((rawCode uT : ℚ) / kt) = (c.c1.toInt * rawCode uT : ℚ) / kt := by ring
  have h2 : (-17179867136 : ℚ) / kt ≤ (c.c1.toInt * rawCode uT : ℚ) / kt := by gcongr
  rw [e]
  have e2 : (-17179867136 : ℚ) / kt = -(2048 * (2 ^ 23 / kt)) + 2048 / kt := by ring
  push_cast
  linarith [h0.1]

theorem pExact_gt {kt kp : Nat} (c : Coeffs) (uT uP : Raw24) (h0 : 0 < kt) (h1 : 0 < kp) :
    -pBound kt kp + 2 ^ 19 / kp + 2 ^ 15 / kt ≤ pExact kt kp c (rawCode uT) (rawCode uP) := by
  have hk : (0 : ℚ) < kt := by positivity
  have hp : (0 : ℚ) < kp := by positivity
  have prod : ∀ {x y B C : ℚ}, |x| ≤ B → |y| ≤ C → |x * y| ≤ B * C := fun hx hy => by
    rw [abs_mul]; exact mul_le_mul hx hy (abs_nonneg _) (le_trans (abs_nonneg _) hx)
  have ht := abs_normalised_le uT kt
  have hq := abs_normalised_le uP kp
  have e10 : -(2 ^ 19 * normalised (2 ^ 23) kp) + 2 ^ 19 / kp ≤ c.c10.toInt * normalised (rawCode uP) kp := by
    have h := mul_raw_lower (by omega) (by omega) c.c10 uP
    norm_num at h
    have : (-4398045986816 : ℚ) / kp ≤ (c.c10.toInt * rawCode uP : ℚ) / kp := by gcongr
    simp only [normalised]
    calc _ = (-4398045986816 : ℚ) / kp := by push_cast; ring
      _ ≤ _ := this
      _ = _ := by ring
  have e01 : -(2 ^ 15 * normalised (2 ^ 23) kt) + 2 ^ 15 / kt ≤ c.c01.toInt * normalised (rawCode uT) kt := by
    have h := mul_raw_lower (by omega) (by omega) c.c01 uT
    norm_num at h
    have : (-274877874176 : ℚ) / kt ≤ (c.c01.toInt * rawCode uT : ℚ) / kt := by gcongr
    simp only [normalised]
    calc _ = (-274877874176 : ℚ) / kt := by push_cast; ring
      _ ≤ _ := this
      _ = _ := by ring
  have e00 := (abs_le.1 (abs_toInt_le c.c00)).1
  have e20 := (abs_le.1 (prod (abs_toInt_le c.c20) (prod hq hq))).1
  have e30 := (abs_le.1 (prod (abs_toInt_le c.c30) (prod hq (prod hq hq)))).1
  have e11 := (abs_le.1 (prod (abs_toInt_le c.c11) (prod ht hq))).1
  have e21 := (abs_le.1 (prod (abs_toInt_le c.c21) (prod ht (prod hq hq)))).1
  simp only [pExact, pBound]
  norm_num at *
  linarith

end Machine
end Sys2Proof
end

