-- ==== Sys2Proof/Tests/Slice0.lean ====
section
/-! SUPPORT. Small tests with results from the spec's own vectors (95_test_vectors.md) and encodings, and for each
statement with hypotheses a witness that meets them. -/

namespace Sys2Proof
namespace Tests

open Sys2Proof.Machine
open Sys2Proof.Safety

/-! ## Helpers -/

/-- The response frame an outcome ends with. -/
def response (o : Host.Outcome State Fault Refusal) : Option Packet :=
  match o with
  | .next t => t.out.getLast?.map Output.rsp
  | .fault _ => none
  | .refused _ => none

/-- A field of the registers after an outcome. -/
def after {α : Type} (f : Regs → α) (o : Host.Outcome State Fault Refusal) : Option α :=
  match o with
  | .next t => some (f t.regs)
  | .fault _ => none
  | .refused _ => none

/-- The reset state with other registers. -/
def withRegs (r : Regs) : State := { State.reset with regs := r }

/-- An armed block holding the readings given, thresholds at their defaults (section 2.4 of the vectors). -/
def armedWith (prs tmp : Q3216) : State :=
  withRegs { Regs.reset with armed := true, prs := prs, tmp := tmp }

/-- The default table with the reference defect selected. -/
def parityParams : Params := { scale := Config.defaultScale, parity := true, legal := by decide }

/-- The calibration block of vector V2.1. -/
def blockV21 : CalBlock := 0x0CBEFB13A55F2A0FF50D04CAD5DD0020F9BD

/-- The state after LDCAL of that block. -/
def calibrated : State := withRegs { Regs.reset with cal := unpackCal blockV21, calv := true }

/-- The reset state with frames waiting. -/
def waiting (packets : List Packet) : State := State.reset.deliver .host packets

/-! ## WellFormed refuses each kind of ill-formed operand (R58 (d), (e), (g)) -/

theorem test_wellFormed_refuses_dec_width_zero : Instr.wellFormed (.dec 0 0) = false := by decide
theorem test_wellFormed_refuses_dec_width_25 : Instr.wellFormed (.dec 25 0) = false := by decide
theorem test_wellFormed_refuses_dec_wide_value : Instr.wellFormed (.dec 12 0x1000) = false := by decide
theorem test_wellFormed_refuses_reserved_register : Instr.wellFormed (.rd 0x09) = false := by decide
theorem test_wellFormed_admits_dec_at_both_ends :
    (Instr.wellFormed (.dec 1 1) && Instr.wellFormed (.dec 24 0xFFFFFF)) = true := by decide

/-! ## Packets written out bit by bit from R50 to R56 -/

theorem test_decode_dec : decode [0b00000001, 0b00001100, 0b00000000, 0b00001000, 0b00000000]
    = .ok (.dec 12 0x000800) := by decide
theorem test_decode_ldcal : decode [0b00000010, 0x0C, 0xBE, 0xFB, 0x13, 0xA5, 0x5F, 0x2A, 0x0F, 0xF5, 0x0D, 0x04, 0xCA,
    0xD5, 0xDD, 0x00, 0x20, 0xF9, 0xBD] = .ok (.ldcal blockV21) := by decide
theorem test_decode_sample : decode [0b00000011, 0b00000010, 0, 0, 0b11111100, 0, 0]
    = .ok (.sample 0x020000 0xFC0000) := by decide
theorem test_decode_setthrp : decode [0b00000100, 0, 0, 0b00000011, 0b11110101, 0b01000000, 0, 0, 0, 0b00000011,
    0b11101000, 0, 0] = .ok (.setthrp 0x000003F54000 0x000003E80000) := by decide
theorem test_decode_setthrt : decode [0b00000101, 0, 0, 0, 0b00011110, 0, 0, 0, 0, 0, 0b00001010, 0, 0]
    = .ok (.setthrt 0x0000001E0000 0x0000000A0000) := by decide
theorem test_decode_cmp : decode [0b00000110] = .ok .cmp := by decide
theorem test_decode_evclr : decode [0b00000111, 0b00000101] = .ok (.evclr 0b0101) := by decide
theorem test_decode_rd : decode [0b00001000, 0b00100000] = .ok (.rd 0x20) := by decide

theorem test_decode_empty : decode [] = .error .emptyPacket := by decide
theorem test_decode_reserved_opcode : decode [0x09] = .error .reservedOpcode := by decide
theorem test_decode_long_cmp : decode [0x06, 0x00] = .error .wrongLength := by decide
theorem test_decode_dec_reserved_bits : decode [0x01, 0x2C, 0x00, 0x08, 0x00] = .error .reservedBits := by decide
theorem test_decode_evclr_reserved_bits : decode [0x07, 0x10] = .error .reservedBits := by decide

/-! The opcode table's `match` words, as the table numbers them. -/

theorem test_tableWord_dec : decodeTableWord 40 0x0100000000 = some (.dec 0 0) := by decide
theorem test_tableWord_ldcal : decodeTableWord 152 0x02000000000000000000000000000000000000 = some (.ldcal 0) := by
  decide
theorem test_tableWord_evclr : decodeTableWord 16 0x0700 = some (.evclr 0) := by decide
theorem test_tableWord_runs_first :
    response (step (State.reset.withFetchWord 16 0x0820)) = some [0x00, 0x00, 0x00, 0x03, 0xFC, 0x00, 0x00] := by decide

/-! ## DEC: V1.3, V1.26 -/

theorem test_dec_most_negative :
    response (exec (.dec 12 0x800) State.reset) = some [0x00, 0xFF, 0xFF, 0xF8, 0x00] := by decide
theorem test_dec_unmasked_input : response (exec (.dec 12 0x1000) State.reset) = some [0x01] := by decide

/-! ## LDCAL: V2.1, V2.14 -/

theorem test_ldcal_coefficients :
    after (fun r => [r.cal.c0.toInt, r.cal.c1.toInt, r.cal.c00.toInt, r.cal.c10.toInt, r.cal.c01.toInt,
      r.cal.c11.toInt, r.cal.c20.toInt, r.cal.c21.toInt, r.cal.c30.toInt]) (exec (.ldcal blockV21) State.reset)
    = some [203, -261, 80469, -54769, -2803, 1226, -10787, 32, -1603] := by decide
theorem test_ldcal_zero_block_locks :
    response (exec (.ldcal blockV21) (withRegs { Regs.reset with calv := true })) = some [0x02] := by decide

/-! ## SAMPLE: V3.2, V3.5 (a floor of a negative temperature) -/

theorem test_sample_readings :
    after (fun r => (r.tmp, r.prs)) (exec (.sample 0x020000 0xFC0000) calibrated)
    = some (0x000000244000, 0x000159E95684) := by decide
theorem test_sample_floors_down :
    after (fun r => (r.tmp, r.prs)) (exec (.sample 0x7FFFFF 0x800000) calibrated)
    = some (0xFFFFF0158020, 0x0002A7C20D99) := by decide

/-! ## SETTHRP, SETTHRT: V4.30, V4.28 -/

theorem test_setthrp_negative :
    after (fun r => (r.upp, r.lop, r.armed)) (exec (.setthrp 0xFFFFFFFB0000 0xFFFFFFEC0000) State.reset)
    = some (0xFFFFFFFB0000, 0xFFFFFFEC0000, true) := by decide
theorem test_setthrt_leaves_pressure :
    after (fun r => (r.upt, r.lot, r.upp, r.lop, r.armed)) (exec (.setthrt 0x0000001E0000 0x0000000A0000) State.reset)
    = some (0x0000001E0000, 0x0000000A0000, 0x000003FC0000, 0x000003DE0000, true) := by decide

/-! ## CMP: V4.17 (signed), V4.8 (`PARITY = true`) -/

theorem test_cmp_is_signed :
    response (exec .cmp (armedWith 0xFFFFFFFF0000 0x000000140000)) = some [0x00, 0x22] := by decide
theorem test_cmp_parity :
    response (exec .cmp { armedWith 0x000003E80000 0x000000280000 with params := parityParams }) = some [0x00, 0x88] := by
  decide

/-! ## EVCLR: V4.33; RD: V5.15, V5.17 -/

theorem test_evclr_clears_named :
    after Regs.evf (exec (.evclr 0b0001) (withRegs { Regs.reset with evf := 0b0101 })) = some 0b0100 := by decide
theorem test_rd_status :
    response (exec (.rd 0x30) (withRegs { Regs.reset with armed := true, calv := true, evf := 0b1010, cprev := 0b1000 }))
    = some [0x00, 0x00, 0x00, 0x00, 0x00, 0x08, 0xA3] := by decide
theorem test_rd_displayed_negative :
    response (exec (.rd 0x12) (withRegs { Regs.reset with tmp := 0xFFFFFFE6C000 }))
    = some [0x00, 0xFF, 0xFF, 0xFF, 0xFF, 0xFF, 0x03] := by decide

/-! ## Text (R59, R116) -/

theorem test_assemble_decimal : assembleLine "SETTHRP 1013.25, 1000 ; V4.27".toList
    = some [[0x04, 0x00, 0x00, 0x03, 0xF5, 0x40, 0x00, 0x00, 0x00, 0x03, 0xE8, 0x00, 0x00]] := by decide
theorem test_assemble_ldcal : assembleLine "LDCAL 0C BE FB 13 A5 5F 2A 0F F5 0D 04 CA D5 DD 00 20 F9 BD".toList
    = some [encode (.ldcal blockV21)] := by decide
theorem test_assemble_register_name : assembleLine "RD DISP_P".toList = some [[0x08, 0x13]] := by decide
theorem test_display_text : displayText 363 = "36.3" ∧ displayText (-5) = "-0.5" ∧ displayText 0 = "0.0" := by decide

/-! ## Witnesses: states and operands that meet the hypotheses of each statement -/

theorem witness_ResetInputRestoresTheResetState : ({ calibrated with inputs := [.reset] } : State).inputs = .reset :: [] := rfl
theorem witness_ResetInputRestoresTheResetState_held :
    let s : State := { State.reset with rst := true, inputs := [.command .host [0x06]] }
    s.rst = true ∧ s.inputs = .command .host [0x06] :: [] ∧ HeldInReset s := ⟨rfl, rfl, fun _ => rfl⟩
theorem witness_ResetInputRestoresTheResetState_release :
    ({ State.reset with rst := true, inputs := [.release] } : State).inputs = .release :: [] := rfl
/-- R26: a SETTHRP that comes while `rst_i` is asserted does not arm. -/
theorem test_setthrp_while_asserted :
    after (fun r => (r.armed, r.upp))
      (step { State.reset with rst := true, inputs := [.command .host (encode (.setthrp 5 5))] })
    = some (false, 0x000003FC0000) := by decide
theorem test_armed_block_reset :
    after Regs.armed (step { armedWith 0 0 with inputs := [.reset] }) = some false := by decide

theorem witness_DecAnswersTheSignedValue_legal :
    (1 ≤ (1 : BitVec 5).toNat ∧ (1 : BitVec 5).toNat ≤ 24 ∧ (1 : Raw24).toNat < 2 ^ (1 : BitVec 5).toNat)
    ∧ (1 ≤ (24 : BitVec 5).toNat ∧ (24 : BitVec 5).toNat ≤ 24 ∧ (0xFFFFFF : Raw24).toNat < 2 ^ (24 : BitVec 5).toNat) := by
  decide
theorem witness_DecAnswersTheSignedValue_illegal :
    (0 : BitVec 5).toNat = 0 ∧ 24 < (25 : BitVec 5).toNat ∧ 2 ^ (1 : BitVec 5).toNat ≤ (2 : Raw24).toNat
    ∧ (0x20 : Byte).toNat / 32 ≠ 0 := by decide
theorem witness_wrongLength : ([] : List Byte).length ≠ 4 ∧ ([0x00] : List Byte).length ≠ 0 := by decide
theorem witness_DecoderFunctionLaws :
    (1 ≤ 12 ∧ 4095 < 2 ^ 12) ∧ ((-2 ^ (12 - 1) : Int) ≤ -2048 ∧ (-2048 : Int) ≤ 2 ^ (12 - 1) - 1) ∧ 12 ≤ 48 := by decide
theorem witness_LdcalLoadsTheExtractedCoefficients :
    State.reset.regs.calv = false ∧ calibrated.regs.calv = true := by decide
theorem witness_IntegerFormsEqualExactPolynomials : 0 < Params.default.kt ∧ 0 < Params.default.kp := by decide
theorem witness_IntegerFloorsAreWithinOneUnit : 0 < 524288 ∧ 0 < 1572864 := by decide
theorem witness_ReadingsStayWithinTheBounds : (0 < 1 ∧ 0 < 1) := by decide
theorem witness_LegalConfigurationsAreTheBoundedOnes :
    Config.legalScale Config.defaultScale = true ∧ Config.legalScale #v[0, 1, 1, 1, 1, 1, 1, 1] = false := by decide
theorem witness_SampleLaws_purity : ({ calibrated with params := parityParams } : State).regs.cal = calibrated.regs.cal
    ∧ parityParams.scale[0] = Params.default.scale[0] ∧ parityParams.scale[1] = Params.default.scale[1] := by decide
theorem witness_SampleLaws_zero : State.reset.regs.cal = Coeffs.zero := rfl
theorem witness_SampleLaws_exact :
    0 < 524288 ∧ ((524288 : Nat) : Int) ∣ (unpackCal blockV21).c1.toInt * 131072 * 32768
    ∧ (16 : Int) ∣ (unpackCal blockV21).c1.toInt * 131072 := by decide
theorem witness_ChannelsDependOnTheirOwnCoefficients :
    (unpackCal blockV21).c0 = ({ unpackCal blockV21 with c00 := 0 } : Coeffs).c0
    ∧ (unpackCal blockV21).c1 = ({ unpackCal blockV21 with c00 := 0 } : Coeffs).c1 := by decide
theorem witness_RoundingIsNearestTiesAway : |10 * (25.25 : ℚ) - rnd10 25.25| = 1 / 2 := by norm_num [rnd10]
theorem witness_SetthrtWritesTemperatureThresholds : parityParams.parity = true := rfl
theorem witness_ArmingIsIdempotent : (armedWith 0 0).regs.armed = true := rfl
theorem witness_CmpComparesAndRaises : State.reset.regs.armed = false ∧ (armedWith 0 0).regs.armed = true := by decide
theorem witness_PersistentConditionGivesOneEdge :
    HeldInReset (armedWith 0 0) ∧ (armedWith 0 0).regs.armed = true ∧ (armedWith 0 0).regs.cprev.getLsbD 1 = false
    ∧ (condBits (armedWith 0 0).params (armedWith 0 0).regs).getLsbD 1 = true
    ∧ let s : State := { armedWith 0 0 with inputs := [.command .monitor (encode (.sample 0 0))] }
      Input.reset ∉ s.inputs ∧ (∀ who, Input.command who (encode .cmp) ∉ s.inputs)
      ∧ ∃ t u, exec .cmp s = .next t ∧ Sys2Proof.core.run 1 t = .next u
        ∧ (condBits u.params u.regs).getLsbD 1 = true := by
  refine ⟨fun h => absurd h (by decide), rfl, rfl, rfl, by decide, ?_, _, _, rfl, rfl, by decide⟩
  intro who
  cases who <;> decide
theorem witness_ConditionsAreIndependent : Params.default.parity = false ∧ parityParams.parity = true
    ∧ Regs.reset.prs = calibrated.regs.prs ∧ Regs.reset.upp = calibrated.regs.upp ∧ Regs.reset.lop = calibrated.regs.lop
    ∧ Regs.reset.tmp = calibrated.regs.tmp ∧ Regs.reset.upt = calibrated.regs.upt ∧ Regs.reset.lot = calibrated.regs.lot := by
  decide
theorem witness_FlooredComparisonsFollowExactValues : 0 < Params.default.kt ∧ 0 < Params.default.kp := by decide
theorem witness_EvclrClearsTheMaskedFlags : (0x10 : Byte).toNat / 16 ≠ 0 := by decide
theorem witness_EvclrClearsTheMaskedFlags_edge :
    let s := withRegs { Regs.reset with armed := true, cprev := 0b1010, evf := 0b1010 }
    s.regs.armed = true ∧ s.regs.cprev.getLsbD 3 = true ∧ (condBits s.params s.regs).getLsbD 3 = true := by decide
theorem witness_ScriptedPressuresRaiseHighThenLow_parity :
    parityParams.parity = true ∧ (armedWith 0 0).regs.tmp.toInt < 990 * 65536 := by decide
theorem witness_ScriptedPressuresRaiseHighThenLow :
    (armedWith 0 0).regs.armed = true ∧ (armedWith 0 0).regs.cprev = 0
    ∧ (armedWith 0 0).regs.upp = tc 48 (1020 * 65536) ∧ (armedWith 0 0).regs.lop = tc 48 (990 * 65536) := by decide
theorem witness_DecimalThresholdsAreFloored :
    0 < 100 ∧ (-2 ^ 47 ≤ (101325 : Int) * 65536 / 100 ∧ (101325 : Int) * 65536 / 100 < 2 ^ 47)
    ∧ ¬ ((2 ^ 31 : Int) * 65536 / 1 < 2 ^ 47) := by decide
theorem witness_RdAnswersTheRegisterMap :
    (0x23, 0x000000050000) ∈ registerTable Regs.reset ∧ Params.default.scale[7] < 2 ^ 47
    ∧ registerListed 0x09 = false ∧ registerListed 0x48 = false := by
  refine ⟨?_, by decide, by decide, by decide⟩
  simp [registerTable, Regs.reset]
theorem witness_ReadsHaveNoSideEffect :
    ∃ t u, exec (.rd 0x12) State.reset = .next t ∧ exec (.rd 0x12) t = .next u := ⟨_, _, rfl, rfl⟩

theorem witness_ExactlyTheIllegalPacketsAnswerIll_illegal :
    IllegalPacket [] ∧ IllegalPacket [0x00] ∧ IllegalPacket [0xFF, 0x00] ∧ IllegalPacket [0x06, 0x00]
    ∧ IllegalPacket [0x01, 0x2C, 0x00, 0x08, 0x00] ∧ IllegalPacket [0x01, 0x19, 0x00, 0x00, 0x00]
    ∧ IllegalPacket [0x01, 0x01, 0x00, 0x00, 0x02] ∧ IllegalPacket [0x07, 0x10] ∧ IllegalPacket [0x08, 0x48] :=
  ⟨.empty, .reservedOpcode _ _ (by decide), .reservedOpcode _ _ (by decide), .wrongLength _ _ 1 (by decide) (by decide),
    .decReserved _ _ _ _ (by decide), .decWidth _ _ _ _ (by decide), .decWide _ _ _ _ (by decide),
    .evclrReserved _ (by decide), .rdReserved _ (by decide)⟩
theorem witness_ExactlyTheIllegalPacketsAnswerIll_legal : ¬ IllegalPacket [0x06] := by
  intro h
  cases h with
  | reservedOpcode _ _ h => revert h; decide
  | wrongLength _ _ len h hl => revert h; simp at hl; simp; omega
theorem witness_heldInReset : HeldInReset (waiting [[0x06]]) ∧ HeldInReset { State.reset with rst := true } :=
  ⟨fun _ => rfl, fun _ => rfl⟩
theorem witness_command_waiting : (waiting [[0x06], [0x08, 0x12]]).inputs
    = .command .host [0x06] :: [.command .host [0x08, 0x12]] := rfl
theorem witness_OperandsAreAssembledMostSignificantFirst : (0x1F : Byte).toNat < 32 ∧ (0x0F : Byte).toNat < 16
    ∧ (List.replicate 18 (0xFF : Byte)).length = 18 := by decide
theorem witness_EncodeOfDecode : decode [0x07, 0x0F] = .ok (.evclr 0xF) := by decide
theorem witness_StepRunsTheDecodedInstruction :
    State.reset.rst = false ∧ ({ State.reset with rst := true } : State).rst = true ∧
    decode [0x06] = .ok .cmp ∧ decode [0x06, 0x00] = .error .wrongLength ∧ State.reset.inputs = [] := by decide

/-- An armed block with a CMP waiting, at readings below both lower thresholds. -/
def pollState : State := { armedWith 0 0 with inputs := [.command .monitor [0x06]] }

theorem witness_RegistersChangeOnlyByTheirOperations :
    HeldInReset pollState ∧ ∃ t, step pollState = .next t ∧ t.regs.cprev ≠ pollState.regs.cprev :=
  ⟨fun h => absurd h (by decide), _, rfl, by decide⟩
theorem witness_OnlyArmedCmpPulses :
    ∃ t o, step pollState = .next t ∧ t.out = pollState.out ++ [o] ∧ o.hit ≠ 0 := ⟨_, _, rfl, rfl, by decide⟩
theorem witness_LatchesHoldUntilReset :
    ∃ t, step { calibrated with inputs := [.command .host [0x06]] } = .next t ∧ calibrated.regs.calv = true
      ∧ pollState.regs.armed = true := ⟨_, rfl, rfl, rfl⟩
theorem witness_StepKeepsInvariant : Inv pollState ∧ ∃ t, step pollState = .next t := by
  refine ⟨⟨fun h => absurd h (by decide), ⟨?_, ?_, ?_, ?_, ?_⟩, ?_⟩, _, rfl⟩
  · refine ⟨?_, ?_, by decide⟩ <;>
      norm_num [pollState, armedWith, withRegs, State.reset, Params.default, Params.kt, tBound, normalised,
        Config.defaultScale, show (0 : Q3216).toInt = 0 from rfl]
  · refine ⟨?_, ?_, by decide⟩ <;>
      norm_num [pollState, armedWith, withRegs, State.reset, Params.default, Params.kt, Params.kp, pBound, normalised,
        Config.defaultScale, show (0 : Q3216).toInt = 0 from rfl]
  · intro _; rfl
  · intro _; exact ⟨rfl, rfl⟩
  · intro h; exact absurd h (by decide)
  · simp [pollState, armedWith, withRegs]
theorem witness_ReadingsAreNeverTorn : ∃ t, Sys2Proof.core.run 1 pollState = .next t := ⟨_, rfl⟩
theorem witness_MergesKeepEachRequestersOrder :
    IsMerge [] [[0x06]] pollState.inputs ∧ (∃ t, step pollState = .next t) ∧
    IsMerge [[0x06], [0x08, 0x12]] [] (waiting [[0x06], [0x08, 0x12]]).inputs := ⟨⟨rfl, rfl⟩, ⟨_, rfl⟩, ⟨rfl, rfl⟩⟩
theorem witness_ArmedRisesAtMostOnce :
    let s := waiting [encode (.setthrp 5 5), encode (.setthrt 5 5)]
    Input.reset ∉ s.inputs ∧ (0 < 1) ∧ (∃ a b, Sys2Proof.core.run 0 s = .next a ∧ step a = .next b)
      ∧ ∃ c d, Sys2Proof.core.run 1 s = .next c ∧ step c = .next d :=
  ⟨by decide, by decide, ⟨_, _, rfl, rfl⟩, ⟨_, _, rfl, rfl⟩⟩

/-! ## The agents (R131) -/

/-- Six bytes of zeros. -/
def zeroBytes : RawBytes := { t2 := 0, t1 := 0, t0 := 0, p2 := 0, p1 := 0, p0 := 0 }

/-- Arm before `INIT`, poll, then `INIT` and a getter with a CMP between its two packets. -/
def someMoves : List Move :=
  [.host (.configurePressure 5 5), .monitor (.sample zeroBytes), .host (.init (some blockV21)),
   .host (.getterSample .pressure zeroBytes), .monitor .compare, .host (.getterRead .pressure)]

/-- What a run of the platform ends with, seen through a function. -/
def ends {α : Type} (f : Platform → α) (ms : List Move) : Option α := (Platform.run ms Platform.reset).map f

/-- With the coefficients of V2.1 and zero codes `PRS` is 80469 and `TMP` 101.5, so CMP raises both high conditions and the
getter reads 804690. -/
theorem test_agents_run : ends (fun q => (q.host, q.monitor, q.block.out.map Output.rsp)) someMoves
    = some ({ initDone := true, pending := [] }, .sampling,
      [[0x00], [0x00], [0x00], [0x00], [0x00, 0x55], [0x00, 0, 0, 0, 0x0C, 0x47, 0x52]]) := by decide
theorem test_monitor_waits_for_arming : ends Platform.monitor [.monitor (.sample zeroBytes)] = none := by decide
theorem test_monitor_samples_before_comparing :
    ends Platform.monitor [.host (.configureTemperature 5 5), .monitor .compare] = none := by decide
theorem test_second_init_is_no_move :
    ends Platform.monitor [.host (.init none), .host (.init (some blockV21))] = none := by decide
theorem test_reset_ends_the_monitor :
    ends (fun q => (q.host, q.monitor)) (someMoves ++ [.reset]) = some (HostAgent.boot, .absent) := by decide

theorem witness_MonitorLivesFromArmingToReset :
    ∃ q, Platform.reset.move (.host (.configurePressure 5 5)) = some q
      ∧ armedRises Platform.reset.block q.block = true := ⟨_, rfl, rfl⟩
theorem witness_platformInv : PlatformInv Platform.reset := ⟨rfl, rfl, ⟨fun _ => rfl, fun _ => rfl⟩, fun _ => rfl⟩
theorem witness_MonitorSendsThePollLoop : PlatformInv Platform.reset ∧ .reset ∉ someMoves
    ∧ (Platform.run someMoves Platform.reset).isSome = true := ⟨witness_platformInv, by decide, by decide⟩
theorem witness_MonitorSendsThePollLoop_idle : PlatformInv Platform.reset ∧ .reset ∉ [Move.host (.init none)]
    ∧ ∃ q, Platform.run [.host (.init none)] Platform.reset = some q ∧ q.block.regs.armed = false :=
  ⟨witness_platformInv, by decide, _, rfl, rfl⟩
theorem witness_HostIssuesInitOnce :
    .reset ∉ [Move.host (.configurePressure 5 5)] ∧ ∃ q, Platform.run [.host (.configurePressure 5 5)] Platform.reset = some q
      ∧ q.host.initDone = false := ⟨by decide, _, rfl, rfl⟩
theorem witness_PlatformRunIsABlockRun : Platform.reset.block.inputs = [] := rfl
theorem witness_AllowedMovesComplete :
    Platform.reset.host.after (.configurePressure 5 5) = some HostAgent.boot
    ∧ MonitorPhase.after .sampling (.sample zeroBytes) = some .comparing := ⟨rfl, rfl⟩

/-! An execution without end: an armed platform on which only MONITOR moves. -/

/-- SAMPLE at even times, CMP at odd times. -/
def pollMoves (n : Nat) : Option Move :=
  some (.monitor (if n % 2 = 0 then .sample zeroBytes else .compare))

/-- The platform after arming, MONITOR about to SAMPLE. -/
def armedPlatform : Platform := { block := armedWith 0 0, host := HostAgent.boot, monitor := .sampling }

/-- The states of the execution. -/
def pollStates : Nat → Platform
  | 0 => armedPlatform
  | n + 1 => ((pollMoves n).bind (pollStates n).move).getD (pollStates n)

/-- Both commands of MONITOR are taken at once in every state. -/
theorem monitor_take (s : State) (m : MonitorMove) : ∃ t, State.takeAll (Move.monitor m).inputs s = some t := by
  rcases m with b | _
  · exact ⟨_, rfl⟩
  · obtain ⟨u, hu⟩ : ∃ u, exec .cmp (holdReset s) = .next u := by
      cases ha : (holdReset s).regs.armed
      · exact ⟨_, execCmp_idle ha⟩
      · exact ⟨_, execCmp_armed ha⟩
    exact ⟨holdReset u, (State.takeAll_one _ s).trans (State.take_eq_some.mpr (thenHold_next.mpr ⟨u, hu, rfl⟩))⟩

theorem pollStates_move (n : Nat) :
    (pollStates n).monitor = (if n % 2 = 0 then .sampling else .comparing)
    ∧ (pollMoves n).bind (pollStates n).move = some (pollStates (n + 1)) := by
  have complete : ∀ (p : Platform) (m : MonitorMove) (next : MonitorPhase), p.monitor.after m = some next →
      ∃ q, p.move (.monitor m) = some q ∧ q.monitor = next := by
    intro p m next h
    obtain ⟨t, ht⟩ := monitor_take p.block m
    exact ⟨{ block := t, host := p.host, monitor := next }, by simp [Platform.move, ht, h], rfl⟩
  have go : ∀ n, (pollStates n).monitor = (if n % 2 = 0 then .sampling else .comparing) →
      ∃ q, (pollMoves n).bind (pollStates n).move = some q
        ∧ q.monitor = (if (n + 1) % 2 = 0 then .sampling else .comparing) := by
    intro n h
    rcases Nat.mod_two_eq_zero_or_one n with e | e
    · simpa [pollMoves, e, Nat.add_mod] using complete (pollStates n) (.sample zeroBytes) .comparing (by rw [h, e]; rfl)
    · simpa [pollMoves, e, Nat.add_mod] using complete (pollStates n) .compare .sampling (by rw [h, e]; rfl)
  have phase : ∀ n, (pollStates n).monitor = (if n % 2 = 0 then .sampling else .comparing) := by
    intro n
    induction n with
    | zero => rfl
    | succ n ih =>
      obtain ⟨q, hq, hm⟩ := go n ih
      rw [pollStates, hq]; exact hm
  obtain ⟨q, hq, -⟩ := go n (phase n)
  exact ⟨phase n, by rw [pollStates, hq]; rfl⟩

theorem witness_FairMonitorPollsWithoutEnd :
    IsExecution pollStates pollMoves ∧ PlatformInv (pollStates 0) ∧ MonitorFair pollStates pollMoves
    ∧ (pollStates 0).block.regs.armed = true ∧ ∀ k, 0 ≤ k → pollMoves k ≠ some .reset :=
  ⟨fun n => (pollStates_move n).2, ⟨rfl, rfl, by decide, fun _ => rfl⟩, fun n _ => ⟨n, Nat.le_refl n, .inr ⟨_, rfl⟩⟩, rfl,
    by simp [pollMoves]⟩

end Tests
end Sys2Proof
end

section
/-! SUPPORT. The step as one equation per input, and what a packet leaves of the state: every packet has a next state,
only the registers and the outputs can differ there, and an unarmed block pulses nothing. -/

namespace Sys2Proof
namespace Machine

/-! ### One equation per input -/

theorem step_reset {s : State} {rest : List Input} (h : s.inputs = .reset :: rest) :
    step s = .next { s with regs := Regs.reset, rst := true, inputs := rest } := by
  rw [step, h]; rfl

theorem step_release {s : State} {rest : List Input} (h : s.inputs = .release :: rest) :
    step s = .next { s with regs := if s.rst then Regs.reset else s.regs, rst := false, inputs := rest } := by
  rw [step, h]
  change releaseReset (s.setInputs rest) = _
  rw [releaseReset, holdReset_setInputs]
  cases hr : s.rst with
  | true => rw [holdReset_asserted hr]; rfl
  | false => rw [holdReset_released hr]; rfl

theorem step_command {s : State} {who : Requester} {p : Packet} {rest : List Input}
    (h : s.inputs = .command who p :: rest) : step s = acceptPacket p (s.setInputs rest) := by
  rw [step, h]

/-! ### What a packet leaves of the state -/

/-- Every operation comes to a next state: `ILL` and `LOCKED` are responses (R120, R121). -/
theorem exec_total (i : Instr) (s : State) : ∃ t, exec i s = .next t := by
  cases i with
  | dec w v =>
    cases hl : decOperandsLegal w v with
    | true => exact ⟨_, execDec_legal s hl⟩
    | false => exact ⟨_, execDec_illegal s hl⟩
  | ldcal b =>
    cases hc : s.regs.calv with
    | true => exact ⟨_, execLdcal_locked b hc⟩
    | false => exact ⟨_, execLdcal_load b hc⟩
  | sample uT uP => exact ⟨_, rfl⟩
  | setthrp u l => exact ⟨_, rfl⟩
  | setthrt u l => exact ⟨_, rfl⟩
  | cmp =>
    cases ha : s.regs.armed with
    | true => exact ⟨_, execCmp_armed ha⟩
    | false => exact ⟨_, execCmp_idle ha⟩
  | evclr m => exact ⟨_, rfl⟩
  | rd n =>
    cases hr : regOf n with
    | none => exact ⟨_, execRd_none s hr⟩
    | some reg => exact ⟨_, execRd_some s hr⟩

theorem runPacket_total (p : Packet) (s : State) : ∃ t, runPacket p s = .next t := by
  cases hd : decode p with
  | ok i => exact runPacket_ok s hd ▸ exec_total i s
  | error e => exact ⟨_, runPacket_error s hd⟩

/-- The pulses of an operation are CMP's while armed (R101, R124). -/
theorem exec_out_unarmed {i : Instr} {s t : State} (ha : s.regs.armed = false) (h : exec i s = .next t) :
    ∃ o : Output, t.out = s.out ++ [o] ∧ o.hit = 0 ∧ o.edge = 0 := by
  obtain ⟨-, -, o, ho, hcases⟩ := exec_out_cases h
  refine ⟨o, ho, ?_⟩
  obtain ⟨rfl, -⟩ | ⟨rfl, -⟩ | ⟨-, hq⟩ | ⟨-, hq⟩ | ⟨-, hq⟩ | ⟨rfl, -⟩ | ⟨-, harmed, -⟩ := hcases
  · exact ⟨rfl, rfl⟩
  · exact ⟨rfl, rfl⟩
  · exact hq
  · exact hq
  · exact hq
  · exact ⟨rfl, rfl⟩
  · simp [ha] at harmed

theorem runPacket_out_unarmed {p : Packet} {s t : State} (ha : s.regs.armed = false) (h : runPacket p s = .next t) :
    ∃ o : Output, t.out = s.out ++ [o] ∧ o.hit = 0 ∧ o.edge = 0 := by
  cases hd : decode p with
  | ok i => exact exec_out_unarmed ha (runPacket_ok s hd ▸ h)
  | error e => cases raiseIll_next (runPacket_error s hd ▸ h); exact ⟨_, rfl, rfl, rfl⟩

/-- Only the registers and the outputs can differ after a packet. -/
theorem runPacket_frame {p : Packet} {s t : State} (h : runPacket p s = .next t) :
    t = { s with regs := t.regs, out := t.out } := by
  have hrst := runPacket_rst h
  have hkeep : t.params = s.params ∧ t.inputs = s.inputs := by
    cases hd : decode p with
    | ok i =>
      obtain ⟨hp, hi, -⟩ := exec_out_cases (runPacket_ok s hd ▸ h)
      exact ⟨hp, hi⟩
    | error e => cases raiseIll_next (runPacket_error s hd ▸ h); exact ⟨rfl, rfl⟩
  obtain ⟨hp, hi⟩ := hkeep
  cases t
  simp_all

end Machine
end Sys2Proof
end

section
/-! The statements about reset and the STATUS word (R20, R24, R26, R140, R141). -/

namespace Sys2Proof
namespace Machine

/-- R26: a frame taken while `rst_i` is asserted is answered as the reset state answers it, without a pulse, and leaves
the reset state. -/
theorem step_command_asserted {s : State} {who : Requester} {p : Packet} {rest : List Input} (hr : s.rst = true)
    (hi : s.inputs = .command who p :: rest) :
    ∃ (u : State) (o : Output),
      step s = .next { s with regs := Regs.reset, inputs := rest, out := s.out ++ [o] }
      ∧ o.hit = 0 ∧ o.edge = 0
      ∧ runPacket p { s with regs := Regs.reset, inputs := rest } = .next u ∧ u.out = s.out ++ [o] := by
  obtain ⟨u, hu⟩ := runPacket_total p { s with regs := Regs.reset, inputs := rest }
  obtain ⟨o, ho, hhit, hedge⟩ := runPacket_out_unarmed Regs.reset_armed hu
  refine ⟨u, o, ?_, hhit, hedge, hu, ho⟩
  rw [step_command hi, acceptPacket_asserted (s := s.setInputs rest) hr]
  refine ⟨u, hu, ?_⟩
  rw [runPacket_frame hu, ho]; rfl

/-- Settles O2: one equation of `step` per change of `rst_i`, and for a frame the run of its packet in the reset
state. -/
theorem resetInputRestoresTheResetState : Obligations.ResetInputRestoresTheResetState := by
  intro s rest
  exact ⟨fun hi => ⟨step_reset hi, rfl, rfl⟩, fun _ _ => step_command_asserted, step_release⟩

/-- Settles O29: each field of the concatenation answers for its own bit positions. -/
theorem statusBits : Obligations.StatusBits := by
  intro r i
  simp only [statusWord, BitVec.getLsbD_append, BitVec.getLsbD_ofBool, BitVec.getLsbD_zero]
  obtain rfl | rfl | ⟨_, _⟩ | ⟨_, _⟩ | ⟨_, _⟩ | _ :
      i = 0 ∨ i = 1 ∨ (2 ≤ i ∧ i < 4) ∨ (4 ≤ i ∧ i < 8) ∨ (8 ≤ i ∧ i < 12) ∨ 12 ≤ i := by omega
  case inl | inr.inl => rfl
  all_goals simp (disch := omega) only [if_pos, if_neg, Nat.sub_sub, Nat.reduceAdd]

/-- Settles O1: a closed fact about the reset record. -/
theorem resetLeavesTheListedValues : Obligations.ResetLeavesTheListedValues := by
  unfold Obligations.ResetLeavesTheListedValues
  decide

end Machine
end Sys2Proof
end

section
/-! SUPPORT. The illegal packets of R58 (a) to (g) are those that decode to no well-formed command: (a) to (c) and the
reserved bits of (d) and (f) stop the decoder, the operand values of (d), (e) and (g) are ill-formed. -/

namespace Sys2Proof
namespace Machine

open Sys2Proof.Safety

/-! ### What the decoder reads -/

theorem decode_reservedOpcode {b : Byte} (args : List Byte) (h : opcodeOf b = none) :
    decode (b :: args) = .error .reservedOpcode := by
  simp [decode, h]

/-- With the opcode's own length the operands decide (R47). -/
theorem decode_code {o : Opcode} {args : List Byte} (h : args.length + 1 = o.len) :
    decode (o.code :: args) = decodeOperands o args := by
  simp [decode, h]

/-- The two operands of DEC, where bits 7:5 of byte 1 are zero (R50). -/
theorem decode_decPacket (b1 v2 v1 v0 : Byte) :
    decode [0x01, b1, v2, v1, v0] = if b1.toNat < 32 then
        .ok (.dec (BitVec.ofNat 5 b1.toNat) (BitVec.ofNat 24 (v2.toNat * 65536 + v1.toNat * 256 + v0.toNat)))
      else .error .reservedBits := by
  rw [show (0x01 : Byte) = Opcode.dec.code from rfl, decode_code rfl]
  simp [decodeOperands, beNat, Nat.add_assoc]

/-- The mask of EVCLR, where bits 7:4 of byte 1 are zero (R55). -/
theorem decode_evclrPacket (b1 : Byte) :
    decode [0x07, b1] = if b1.toNat < 16 then .ok (.evclr (BitVec.ofNat 4 b1.toNat)) else .error .reservedBits := by
  rw [show (0x07 : Byte) = Opcode.evclr.code from rfl, decode_code rfl]
  simp [decodeOperands, beNat]

theorem decode_rdPacket (n : Byte) : decode [0x08, n] = .ok (.rd n) := by
  rw [show (0x08 : Byte) = Opcode.rd.code from rfl, decode_code rfl]
  simp [decodeOperands, beNat]

/-- A packet that decodes begins with the opcode byte of what it decodes to (R46). -/
theorem decode_head {p : Packet} {i : Instr} (h : decode p = .ok i) : p.head? = some i.opcode.code := by
  cases p with
  | nil => cases h
  | cons b args =>
    cases ho : opcodeOf b with
    | none => rw [decode_reservedOpcode args ho] at h; cases h
    | some o =>
      obtain rfl := opcodeOf_eq_some.mp ho
      by_cases hl : args.length + 1 = o.len
      · rw [decode_code hl] at h
        have hi : i.opcode = o := by
          cases o <;> simp only [decodeOperands] at h
          case dec | evclr => split at h <;> cases h; rfl
          all_goals cases h; rfl
        rw [hi]; rfl
      · rw [decode_wrongLength hl] at h; cases h

/-! ### Which operands are ill-formed -/

/-- DEC's operands as its packet carries them (R58 (d), (e)). -/
theorem decPacket_illFormed (b1 v2 v1 v0 : Byte) :
    Instr.wellFormed (.dec (BitVec.ofNat 5 b1.toNat)
        (BitVec.ofNat 24 (v2.toNat * 65536 + v1.toNat * 256 + v0.toNat))) = false
      ↔ (b1.toNat % 32 = 0 ∨ 24 < b1.toNat % 32)
        ∨ 2 ^ (b1.toNat % 32) ≤ v2.toNat * 65536 + v1.toNat * 256 + v0.toNat := by
  simp only [Instr.wellFormed, decOperandsLegal, Config.decwMax, BitVec.toNat_ofNat, Bool.and_eq_false_iff,
    decide_eq_false_iff_not, Nat.reducePow]
  omega

/-- The numbers missing from R113 are the gaps between its ranges (R58 (g)). -/
theorem registerListed_eq_false {n : BitVec 8} : registerListed n = false ↔
    (0x09 ≤ n.toNat ∧ n.toNat ≤ 0x0F) ∨ (0x14 ≤ n.toNat ∧ n.toNat ≤ 0x1F) ∨ (0x24 ≤ n.toNat ∧ n.toNat ≤ 0x2F)
      ∨ (0x32 ≤ n.toNat ∧ n.toNat ≤ 0x3F) ∨ 0x48 ≤ n.toNat := by
  simp only [registerListed, Bool.or_eq_false_iff, Bool.and_eq_false_iff, decide_eq_false_iff_not]
  omega

theorem regOf_unlisted {n : BitVec 8} (h : registerListed n = false) : regOf n = none := by
  rw [registerListed_eq_false] at h
  unfold regOf
  split
  case h_28 => rfl
  all_goals omega

/-- The lengths of R46's table, read off the opcode map. -/
theorem lengthTable_iff {b : Byte} {len : Nat} :
    (b.toNat, len) ∈ [(1, 5), (2, 19), (3, 7), (4, 13), (5, 13), (6, 1), (7, 2), (8, 2)]
      ↔ ∃ o : Opcode, b = o.code ∧ len = o.len := by
  constructor
  · intro h
    obtain ⟨o, -, ho⟩ := List.mem_map.mp (show (b.toNat, len) ∈
      [Opcode.dec, .ldcal, .sample, .setthrp, .setthrt, .cmp, .evclr, .rd].map (fun o => (o.code.toNat, o.len)) from h)
    obtain ⟨hb, hl⟩ := Prod.mk.inj ho
    exact ⟨o, BitVec.eq_of_toNat_eq hb.symm, hl.symm⟩
  · rintro ⟨o, rfl, rfl⟩
    cases o <;> decide

/-! ### The two readings of R58 agree -/

theorem decode_illegal {p : Packet} {i : Instr} (hp : IllegalPacket p) (h : decode p = .ok i) :
    i.wellFormed = false := by
  cases hp with
  | empty => cases h
  | reservedOpcode b rest hb => rw [decode_reservedOpcode rest (opcodeOf_eq_none.mpr hb)] at h; cases h
  | wrongLength b rest len hmem hlen =>
    obtain ⟨o, rfl, rfl⟩ := lengthTable_iff.mp hmem
    rw [decode_wrongLength (by simpa using hlen)] at h
    cases h
  | decReserved b1 v2 v1 v0 hb => rw [decode_decPacket, if_neg (by omega)] at h; cases h
  | decWidth b1 v2 v1 v0 hw =>
    rw [decode_decPacket] at h
    split at h
    case isTrue => cases h; exact (decPacket_illFormed b1 v2 v1 v0).mpr (.inl hw)
    case isFalse => cases h
  | decWide b1 v2 v1 v0 hv =>
    rw [decode_decPacket] at h
    split at h
    case isTrue => cases h; exact (decPacket_illFormed b1 v2 v1 v0).mpr (.inr hv)
    case isFalse => cases h
  | evclrReserved b1 hb => rw [decode_evclrPacket, if_neg (by omega)] at h; cases h
  | rdReserved n hn => rw [decode_rdPacket] at h; cases h; exact registerListed_eq_false.mpr hn

/-- A packet of its opcode's length that is not illegal decodes to a well-formed command: DEC, EVCLR and RD by their
operand values, the others whatever their operands are. -/
theorem decode_code_legal {o : Opcode} {args : List Byte} (hl : args.length + 1 = o.len)
    (hp : ¬ IllegalPacket (o.code :: args)) : ∃ i, decode (o.code :: args) = .ok i ∧ i.wellFormed = true := by
  cases o
  case dec =>
    obtain ⟨b1, v2, v1, v0, rfl⟩ : ∃ b1 v2 v1 v0, args = [b1, v2, v1, v0] :=
      List.length_eq_four.mp (by simpa [Opcode.len] using hl)
    have hb : b1.toNat < 32 := by
      by_contra hb
      exact hp (.decReserved b1 v2 v1 v0 (by omega))
    refine ⟨_, (decode_decPacket b1 v2 v1 v0).trans (if_pos hb), ?_⟩
    rw [← Bool.not_eq_false, decPacket_illFormed b1 v2 v1 v0]
    rintro (hw | hv)
    · exact hp (.decWidth b1 v2 v1 v0 hw)
    · exact hp (.decWide b1 v2 v1 v0 hv)
  case evclr =>
    obtain ⟨b1, rfl⟩ := List.length_eq_one_iff.mp (by simpa [Opcode.len] using hl)
    have hb : b1.toNat < 16 := by
      by_contra hb
      exact hp (.evclrReserved b1 (by omega))
    exact ⟨_, (decode_evclrPacket b1).trans (if_pos hb), rfl⟩
  case rd =>
    obtain ⟨n, rfl⟩ := List.length_eq_one_iff.mp (by simpa [Opcode.len] using hl)
    refine ⟨_, decode_rdPacket n, ?_⟩
    rw [Instr.wellFormed, ← Bool.not_eq_false, registerListed_eq_false]
    exact fun hn => hp (.rdReserved n hn)
  all_goals exact ⟨_, decode_code hl, rfl⟩

theorem decode_legal {p : Packet} (hp : ¬ IllegalPacket p) : ∃ i, decode p = .ok i ∧ i.wellFormed = true := by
  cases p with
  | nil => exact absurd .empty hp
  | cons b args =>
    cases ho : opcodeOf b with
    | none => exact absurd (.reservedOpcode b args (opcodeOf_eq_none.mp ho)) hp
    | some o =>
      obtain rfl := opcodeOf_eq_some.mp ho
      have hl : args.length + 1 = o.len := by
        by_contra hl
        exact hp (.wrongLength o.code args o.len (lengthTable_iff.mpr ⟨o, rfl, rfl⟩) hl)
      exact decode_code_legal hl hp

end Machine
end Sys2Proof
end

section
/-! The statements about the answer to a packet: `ILL` to exactly the illegal ones (R58, R120), and one response of the
length its opcode and status fix to every one (R45, R48, R61). -/

namespace Sys2Proof
/-- The payload length of the answer `OK` (R61). -/
def Opcode.payloadLen : Opcode → Nat
  | .dec => 4
  | .cmp => 1
  | .rd => 6
  | .ldcal | .sample | .setthrp | .setthrt | .evclr => 0

theorem Opcode.payloadLen_table (op : Opcode) :
    (op.code.toNat, op.payloadLen) ∈ [(1, 4), (2, 0), (3, 0), (4, 0), (5, 0), (6, 1), (7, 0), (8, 6)] := by
  cases op <;> decide

namespace Machine

open Sys2Proof.Safety

/-! ### The answer `ILL` -/

theorem exec_illFormed {i : Instr} (s : State) (h : i.wellFormed = false) : exec i s = raiseIll s := by
  cases i
  case dec w v => exact execDec_illegal s h
  case rd n => exact execRd_none s (regOf_unlisted h)
  all_goals cases h

theorem runPacket_illegal {p : Packet} (s : State) (hp : IllegalPacket p) : runPacket p s = raiseIll s := by
  cases hd : decode p with
  | ok i => rw [runPacket_ok s hd, exec_illFormed s (decode_illegal hp hd)]
  | error e => exact runPacket_error s hd

/-- A well-formed command is answered with another status than `ILL`. -/
theorem exec_wellFormed_answer {i : Instr} {s t : State} (hi : i.wellFormed = true) (h : exec i s = .next t) :
    ∃ o : Output, t.out = s.out ++ [o] ∧ o.rsp.head? ≠ some 0x01 := by
  obtain ⟨-, -, o, ho, hcases⟩ := exec_out_cases h
  refine ⟨o, ho, ?_⟩
  obtain ⟨-, hw⟩ | ⟨rfl, -⟩ | ⟨e, -⟩ | ⟨⟨x, e⟩, -⟩ | ⟨⟨x, e⟩, -⟩ | ⟨rfl, -⟩ | ⟨-, -, -, -, e⟩ := hcases
  case inl => simp [hi] at hw
  case inr.inl | inr.inr.inr.inr.inr.inl => decide
  all_goals rw [e, List.head?_cons]; decide

theorem holdReset_of_held {s : State} (h : HeldInReset s) : holdReset s = s := by
  cases hr : s.rst with
  | false => exact holdReset_released hr
  | true => rw [holdReset_asserted hr, ← h hr]; rfl

/-- A step on a packet: the run from the state `rst_i` allows, held where it is asserted (R26). -/
theorem step_command_run {s : State} {who : Requester} {p : Packet} {rest : List Input}
    (hi : s.inputs = .command who p :: rest) :
    ∃ u, runPacket p (holdReset (s.setInputs rest)) = .next u ∧ step s = .next (holdReset u) := by
  obtain ⟨u, hu⟩ := runPacket_total p (holdReset (s.setInputs rest))
  exact ⟨u, hu, (step_command hi).trans (thenHold_next.mpr ⟨u, hu, rfl⟩)⟩

/-- Settles O31: the illegal packets are those that decode to no well-formed command, which `runPacket` answers with
`raiseIll`; a well-formed command is answered with another status. -/
theorem exactlyTheIllegalPacketsAnswerIll : Obligations.ExactlyTheIllegalPacketsAnswerIll := by
  intro s who p rest hs hi
  have hheld : holdReset (s.setInputs rest) = s.setInputs rest := holdReset_of_held hs
  obtain ⟨u, hu, hstep⟩ := step_command_run hi
  rw [hheld] at hu
  constructor
  · intro hp
    cases raiseIll_next ((runPacket_illegal _ hp).symm.trans hu)
    rw [hstep, holdReset_of_held (s := respond .ill [] (s.setInputs rest)) hs]
    rfl
  · intro hp
    obtain ⟨i, hd, hw⟩ := decode_legal hp
    obtain ⟨o, ho, hne⟩ := exec_wellFormed_answer hw (runPacket_ok _ hd ▸ hu)
    exact ⟨_, o, hstep, (holdReset_out u).trans ho, hne⟩

/-! ### The length of the answer -/

/-- The answers an operation may give: `ILL` alone, `LOCKED` alone to an LDCAL that finds `CALV` set, or `OK` with the
payload length of R61. -/
def IsAnswer (op : Opcode) (calv : Bool) (st : Byte) (payload : List Byte) : Prop :=
  (st = 0x01 ∧ payload = []) ∨ (st = 0x02 ∧ payload = [] ∧ op = .ldcal ∧ calv = true)
    ∨ (st = 0x00 ∧ payload.length = op.payloadLen)

/-- One operation appends one answer of its opcode. -/
theorem exec_answer {i : Instr} {s t : State} (h : exec i s = .next t) :
    ∃ st payload hit edge, t.out = s.out ++ [{ rsp := st :: payload, hit := hit, edge := edge }]
      ∧ IsAnswer i.opcode s.regs.calv st payload := by
  cases hw : i.wellFormed with
  | false =>
    cases raiseIll_next (exec_illFormed s hw ▸ h)
    exact ⟨_, _, _, _, rfl, .inl ⟨rfl, rfl⟩⟩
  | true =>
    cases i with
    | dec w v =>
      cases (execDec_legal s hw).symm.trans h
      exact ⟨_, _, _, _, rfl, .inr (.inr ⟨rfl, beBytes_length 4 _⟩)⟩
    | ldcal b =>
      cases hc : s.regs.calv with
      | true =>
        cases answerLocked_next ((execLdcal_locked b hc).symm.trans h)
        exact ⟨_, _, _, _, rfl, .inr (.inl ⟨rfl, rfl, rfl, rfl⟩)⟩
      | false =>
        cases (execLdcal_load b hc).symm.trans h
        exact ⟨_, _, _, _, rfl, .inr (.inr ⟨rfl, rfl⟩)⟩
    | cmp =>
      cases ha : s.regs.armed with
      | true => cases (execCmp_armed ha).symm.trans h; exact ⟨_, _, _, _, rfl, .inr (.inr ⟨rfl, rfl⟩)⟩
      | false => cases (execCmp_idle ha).symm.trans h; exact ⟨_, _, _, _, rfl, .inr (.inr ⟨rfl, rfl⟩)⟩
    | rd n =>
      cases hr : regOf n with
      | none =>
        cases raiseIll_next ((execRd_none s hr).symm.trans h)
        exact ⟨_, _, _, _, rfl, .inl ⟨rfl, rfl⟩⟩
      | some reg =>
        cases (execRd_some s hr).symm.trans h
        exact ⟨_, _, _, _, rfl, .inr (.inr ⟨rfl, beBytes_length 6 _⟩)⟩
    | sample | setthrp | setthrt | evclr => cases h; exact ⟨_, _, _, _, rfl, .inr (.inr ⟨rfl, rfl⟩)⟩

/-- A packet is answered by one answer of the operation it decodes to, or by `ILL`. -/
theorem runPacket_answer {p : Packet} {s t : State} (h : runPacket p s = .next t) :
    ∃ st payload hit edge, t.out = s.out ++ [{ rsp := st :: payload, hit := hit, edge := edge }]
      ∧ ((st = 0x01 ∧ payload = []) ∨ ∃ op, p.head? = some (Opcode.code op) ∧ IsAnswer op s.regs.calv st payload) := by
  cases hd : decode p with
  | ok i =>
    obtain ⟨st, payload, hit, edge, ho, ha⟩ := exec_answer (runPacket_ok s hd ▸ h)
    exact ⟨st, payload, hit, edge, ho, .inr ⟨i.opcode, decode_head hd, ha⟩⟩
  | error e =>
    cases raiseIll_next (runPacket_error s hd ▸ h)
    exact ⟨_, _, _, _, rfl, .inl ⟨rfl, rfl⟩⟩

/-- The reset state is not calibrated (R24), so `CALV` found set was set. -/
theorem calv_of_holdReset {s : State} (h : (holdReset s).regs.calv = true) : s.regs.calv = true := by
  rw [holdReset_regs] at h
  split at h
  · cases h
  · exact h

/-- Settles O32: one answer of the packet's operation, by cases on the operations; the frame is `runPacket_frame`'s. -/
theorem everyPacketGetsOneResponse : Obligations.EveryPacketGetsOneResponse := by
  intro s who p rest hi
  obtain ⟨u, hu, hstep⟩ := step_command_run hi
  obtain ⟨st, payload, hit, edge, ho, hanswer⟩ := runPacket_answer hu
  have hparams : u.params = s.params := by rw [runPacket_frame hu]; simp
  refine ⟨_, st, payload, hit, edge, hstep, step_inputs hi hstep, by simpa using hparams, by simpa using ho, ?_⟩
  obtain hill | ⟨op, hp, hill | ⟨hst, hpay, rfl, hcalv⟩ | ⟨hst, hlen⟩⟩ := hanswer
  · exact .inl hill
  · exact .inl hill
  · exact .inr (.inl ⟨hst, hpay, hp, calv_of_holdReset (s := s.setInputs rest) hcalv⟩)
  · exact .inr (.inr ⟨hst, op.code, hp, hlen ▸ op.payloadLen_table⟩)

end Machine
end Sys2Proof
end

section
/-! The statements about the decoder function and the operation DEC (R66, R68). -/

namespace Sys2Proof

/-- Four bytes, most significant first, spell the number they are the bytes of (R33). -/
theorem beBytes_four {x : Nat} (h : x < 256 ^ 4) :
    ∃ r3 r2 r1 r0 : Byte, beBytes 4 x = [r3, r2, r1, r0]
      ∧ r3.toNat * 2 ^ 24 + r2.toNat * 2 ^ 16 + r1.toNat * 2 ^ 8 + r0.toNat = x := by
  obtain ⟨r3, r2, r1, r0, hbytes⟩ := List.length_eq_four.mp (beBytes_length 4 x)
  have hx : beNat [r3, r2, r1, r0] = x := hbytes ▸ beNat_beBytes_of_lt h
  refine ⟨r3, r2, r1, r0, hbytes, ?_⟩
  simpa [beNat, Nat.add_assoc] using hx

namespace Machine

open Sys2Proof.Safety

/-! ### The decoder function -/

/-- R8: the pattern of a number is the number modulo `2 ^ n`. -/
theorem tc_toNat (n : Nat) (x : Int) : ((tc n x).toNat : Int) = x % 2 ^ n := by
  have hp : (0 : Int) < 2 ^ n := by positivity
  rw [tc, BitVec.toNat_ofInt]
  exact_mod_cast Int.toNat_of_nonneg (Int.emod_nonneg x hp.ne')

/-- Below half of the range the sign bit is clear (R66 (e)). -/
theorem dec_of_lt {v w : Nat} (h : v < 2 ^ (w - 1)) : dec v w = v := by
  rw [dec, Nat.testBit_lt_two_pow h]
  rfl

/-- From half of the range on the sign bit is set (R65). -/
theorem dec_of_le {v w : Nat} (hw : 1 ≤ w) (h : 2 ^ (w - 1) ≤ v) (hv : v < 2 ^ w) : dec v w = v - 2 ^ w := by
  have hbit : v.testBit (w - 1) = true :=
    Nat.testBit_of_two_pow_le_and_two_pow_add_one_gt h (by rwa [Nat.sub_add_cancel hw])
  rw [dec, if_pos hbit]

/-- R66 (e): the decoder changes exactly the patterns whose sign bit is set. -/
theorem dec_eq_self_iff {v w : Nat} (hw : 1 ≤ w) (hv : v < 2 ^ w) : dec v w = v ↔ v < 2 ^ (w - 1) := by
  constructor
  · intro h
    by_contra hge
    have hp : (0 : Int) < 2 ^ w := by positivity
    rw [dec_of_le hw (not_lt.mp hge) hv] at h
    omega
  · exact dec_of_lt

/-- R66 (a). -/
theorem dec_range {v w : Nat} (hv : v < 2 ^ w) : -2 ^ (w - 1) ≤ dec v w ∧ dec v w ≤ 2 ^ (w - 1) - 1 := by
  rw [dec_eq_toInt hv]
  exact ⟨BitVec.le_toInt _, Int.le_sub_one_of_lt BitVec.toInt_lt⟩

/-- A pattern survives decoding and encoding (R66 (c)). -/
theorem tc_dec_toNat {v w : Nat} (hv : v < 2 ^ w) : (tc w (dec v w)).toNat = v := by
  rw [tc_dec hv, BitVec.toNat_ofNat, Nat.mod_eq_of_lt hv]

/-- R66 (b). -/
theorem dec_emod {v w : Nat} (hv : v < 2 ^ w) : dec v w % 2 ^ w = v := by
  rw [← tc_toNat, tc_dec_toNat hv]

/-- R66 (d): the wider pattern of a decoded value is the sign extension of its own pattern. -/
theorem tc_dec_signExtend {v w : Nat} (n : Nat) (hv : v < 2 ^ w) :
    tc n (dec v w) = (BitVec.ofNat w v).signExtend n := by
  rw [dec_eq_toInt hv]
  rfl

/-- A number in range survives encoding and decoding (R66 (c)). -/
theorem dec_tc {w : Nat} {x : Int} (hw : 1 ≤ w) (h0 : -2 ^ (w - 1) ≤ x) (h1 : x ≤ 2 ^ (w - 1) - 1) :
    dec (tc w x).toNat w = x := by
  rw [dec_toNat, toInt_tc hw h0 (by omega)]

/-- R66 (e): the sign bit alone is the most negative value, and all ones is -1. -/
theorem dec_signBit_and_allOnes {w : Nat} (hw : 1 ≤ w) :
    dec (2 ^ (w - 1)) w = -2 ^ (w - 1) ∧ dec (2 ^ w - 1) w = -1 := by
  have hp : 0 < 2 ^ (w - 1) := Nat.two_pow_pos _
  have hhalf : 2 ^ w = 2 * 2 ^ (w - 1) := by rw [← pow_succ', Nat.sub_add_cancel hw]
  have hhalf' : (2 : Int) ^ w = 2 * 2 ^ (w - 1) := by exact_mod_cast hhalf
  constructor
  · rw [dec_of_le hw le_rfl (by omega)]
    push_cast
    omega
  · rw [dec_of_le hw (by omega) (by omega), Nat.cast_sub (by omega)]
    push_cast
    omega

/-- Settles O4: one law of `dec` or `tc` per clause. -/
theorem decoderFunctionLaws : Obligations.DecoderFunctionLaws := by
  intro w hw
  obtain ⟨hsign, hones⟩ := dec_signBit_and_allOnes hw
  refine ⟨fun v hv => ⟨dec_range hv, dec_emod hv, dec_eq_self_iff hw hv, fun n _ => tc_dec_signExtend n hv⟩,
    fun x h0 h1 => ⟨(tc w x).isLt, dec_tc hw h0 h1, ?_⟩, hsign, hones, dec_of_lt (Nat.two_pow_pos _)⟩
  rintro v hv rfl
  exact (tc_dec_toNat hv).symm

/-! ### The operation DEC -/

/-- A packet whose length is not its opcode's is answered with `ILL` (R47). -/
theorem wrongLengthAnswersIll_code {o : Opcode} {n : Nat} (hn : n + 1 = o.len) : WrongLengthAnswersIll o.code n := by
  intro s args hlen
  exact runPacket_error s (decode_wrongLength (by omega))

/-- R68's bounds on the operands. -/
theorem decOperandsLegal_iff {w : BitVec 5} {v : Raw24} :
    decOperandsLegal w v = true ↔ 1 ≤ w.toNat ∧ w.toNat ≤ 24 ∧ v.toNat < 2 ^ w.toNat := by
  simp only [decOperandsLegal, Bool.and_eq_true, decide_eq_true_eq, and_assoc]
  rfl

/-- R68: on legal operands the payload is the 32-bit pattern of the decoded value. -/
theorem exec_dec_legal {w : BitVec 5} {v : Raw24} (s : State) (h : decOperandsLegal w v = true) :
    ∃ r3 r2 r1 r0 : Byte,
      exec (.dec w v) s = .next { s with out := s.out ++ [{ rsp := [0x00, r3, r2, r1, r0], hit := 0, edge := 0 }] }
      ∧ ((r3.toNat * 2 ^ 24 + r2.toNat * 2 ^ 16 + r1.toNat * 2 ^ 8 + r0.toNat : Nat) : Int)
        = dec v.toNat w.toNat % 2 ^ 32 := by
  obtain ⟨r3, r2, r1, r0, hbytes, hvalue⟩ := beBytes_four (tc 32 (dec v.toNat w.toNat)).isLt
  refine ⟨r3, r2, r1, r0, ?_, by rw [hvalue, tc_toNat]⟩
  rw [← hbytes]
  exact execDec_legal s h

/-- Settles O3: legal operands by `exec_dec_legal`, the others by what makes an instruction or a packet illegal. -/
theorem decAnswersTheSignedValue : Obligations.DecAnswersTheSignedValue := by
  refine ⟨fun s w v => ⟨fun h1 h24 hv => ?_, fun h => ?_, fun b1 v2 v1 v0 hb => ?_⟩,
    wrongLengthAnswersIll_code (o := .dec) rfl⟩
  · exact exec_dec_legal s (decOperandsLegal_iff.mpr ⟨h1, h24, hv⟩)
  · refine exec_illFormed s (i := .dec w v) (Bool.eq_false_iff.mpr fun hlegal => ?_)
    obtain ⟨h1, h24, hv⟩ := decOperandsLegal_iff.mp hlegal
    omega
  · exact runPacket_illegal s (.decReserved b1 v2 v1 v0 hb)

end Machine
end Sys2Proof
end

section
/-! The statements about the calibration store: what LDCAL loads, and its unpacking as a bijection (R74 to R77). -/

namespace Sys2Proof

/-- Byte `k` of `n`, counted from the most significant one (R33, R34). -/
theorem beBytes_getD_toNat {n k : Nat} (x : Nat) (hk : k < n) :
    ((beBytes n x).getD k 0).toNat = x / 256 ^ (n - 1 - k) % 256 := by
  induction n generalizing k with
  | zero => omega
  | succ n ih =>
    cases k with
    | zero => simp [beBytes]
    | succ k =>
      rw [beBytes, List.getD_cons_succ, ih (by omega)]
      congr 3
      omega

namespace Machine

/-! ### The extraction table -/

/-- Packet byte `k + 1` of LDCAL is `byte k` of the block (R51, R73). -/
theorem encode_ldcal_getD (block : CalBlock) {k : Nat} (hk : k < 18) :
    ((encode (.ldcal block)).getD (k + 1) 0).toNat = calByte block k :=
  beBytes_getD_toNat block.toNat hk

theorem calByte_lt_two_pow (b : CalBlock) (k : Nat) : calByte b k < 2 ^ 8 := calByte_lt b k

/-- A whole byte moved into place. -/
theorem calByte_shiftLeft_lt (b : CalBlock) (k m : Nat) : calByte b k <<< m < 2 ^ (8 + m) :=
  Nat.shiftLeft_lt (calByte_lt_two_pow b k)

/-- The low half of a byte moved into place. -/
theorem calByte_lowNibble_shiftLeft_lt (b : CalBlock) (k m : Nat) : (calByte b k &&& 0x0F) <<< m < 2 ^ (4 + m) :=
  Nat.shiftLeft_lt (Nat.and_lt_two_pow _ (by decide))

/-- The high half of a byte. -/
theorem calByte_highNibble_lt (b : CalBlock) (k : Nat) : calByte b k >>> 4 < 2 ^ 4 := by
  have h := calByte_lt b k
  rw [Nat.shiftRight_eq_div_pow]
  omega

/-- Two terms of a field that lie below its width are a number of that width. -/
theorem or_lt_of_le {x y m n w : Nat} (hx : x < 2 ^ m) (hy : y < 2 ^ n) (hm : m ≤ w := by decide)
    (hn : n ≤ w := by decide) : x ||| y < 2 ^ w :=
  Nat.or_lt_two_pow (hx.trans_le (Nat.pow_le_pow_right (by decide) hm))
    (hy.trans_le (Nat.pow_le_pow_right (by decide) hn))

theorem calU0_lt (b : CalBlock) : calU0 b < 2 ^ 12 :=
  or_lt_of_le (calByte_shiftLeft_lt b 0 4) (calByte_highNibble_lt b 1)

theorem calU1_lt (b : CalBlock) : calU1 b < 2 ^ 12 :=
  or_lt_of_le (calByte_lowNibble_shiftLeft_lt b 1 8) (calByte_lt_two_pow b 2)

theorem calU00_lt (b : CalBlock) : calU00 b < 2 ^ 20 :=
  or_lt_of_le (or_lt_of_le (w := 20) (calByte_shiftLeft_lt b 3 12) (calByte_shiftLeft_lt b 4 4))
    (calByte_highNibble_lt b 5)

theorem calU10_lt (b : CalBlock) : calU10 b < 2 ^ 20 :=
  or_lt_of_le (or_lt_of_le (w := 20) (calByte_lowNibble_shiftLeft_lt b 5 16) (calByte_shiftLeft_lt b 6 8))
    (calByte_lt_two_pow b 7)

/-- The fields of the five 16-bit coefficients. -/
theorem calByte_pair_lt (b : CalBlock) (j k : Nat) : calByte b j <<< 8 ||| calByte b k < 2 ^ 16 :=
  or_lt_of_le (calByte_shiftLeft_lt b j 8) (calByte_lt_two_pow b k)

/-- Settles O6: the write is `execLdcal`'s, and each coefficient is its field's decoded value by
`toInt_tc_dec`, the field being in range. -/
theorem ldcalLoadsTheExtractedCoefficients : Obligations.LdcalLoadsTheExtractedCoefficients := by
  refine ⟨fun s block => ⟨fun hcalv => ?_, fun hcalv => execLdcal_locked block hcalv⟩,
    wrongLengthAnswersIll_code (o := .ldcal) rfl⟩
  refine ⟨unpackCal block, execLdcal_load block hcalv, ?_⟩
  simp only [encode_ldcal_getD, Nat.reduceLT]
  exact ⟨toInt_tc_dec (calU0_lt block), toInt_tc_dec (calU1_lt block), toInt_tc_dec (calU00_lt block),
    toInt_tc_dec (calU10_lt block), toInt_tc_dec (calByte_pair_lt block 8 9),
    toInt_tc_dec (calByte_pair_lt block 10 11), toInt_tc_dec (calByte_pair_lt block 12 13),
    toInt_tc_dec (calByte_pair_lt block 14 15), toInt_tc_dec (calByte_pair_lt block 16 17)⟩

/-! ### Unpacking and packing -/

/-- Consecutive slices of the block, put together, are the block (R34, R77). -/
theorem packCal_unpackCal (b : CalBlock) : packCal (unpackCal b) = b := by
  rw [unpackCal_slices, packCal]
  simp (disch := decide) only [BitVec.extractLsb'_append_extractLsb'_eq_extractLsb']
  exact BitVec.extractLsb'_eq_self

theorem append_inj {w v : Nat} {x x' : BitVec w} {y y' : BitVec v} : x ++ y = x' ++ y' ↔ x = x' ∧ y = y' := by
  constructor
  · intro h
    have hx : x = x' := by
      rw [← BitVec.extractLsb'_append_eq_left (a := x) (b := y), h, BitVec.extractLsb'_append_eq_left]
    subst hx
    exact ⟨rfl, (BitVec.append_right_inj x).mp h⟩
  · rintro ⟨rfl, rfl⟩
    rfl

/-- The widths are fixed, so a concatenation determines its nine patterns. -/
theorem packCal_injective : Function.Injective packCal := by
  rintro ⟨⟩ ⟨⟩ h
  have hparts := append_inj.mp h
  simp only [append_inj, and_assoc] at hparts
  rwa [Coeffs.mk.injEq]

/-- R77: the packed block holds each pattern where unpacking reads it. -/
theorem unpackCal_packCal (c : Coeffs) : unpackCal (packCal c) = c :=
  packCal_injective (packCal_unpackCal (packCal c))

/-- Settles O7: packing is a left inverse of unpacking slice by slice, and a right inverse because it is injective. -/
theorem calibrationUnpackingIsABijection : Obligations.CalibrationUnpackingIsABijection :=
  ⟨unpackCal_packCal, packCal_unpackCal⟩

end Machine
end Sys2Proof
end

section
/-! The statements about SAMPLE, the evaluator and the display rounding: exact forms (R86), floors (R87), magnitude bounds
(R91), the laws of R93 and the rounding of R89. -/

namespace Sys2Proof
namespace Machine

open Sys2Proof.Safety

/-! ### The integer forms and the exact polynomials (R86, R87) -/

theorem presDen_pos {kt kp : Nat} (ht : 0 < kt) (hp : 0 < kp) : 0 < presDen kt kp := by
  unfold presDen
  positivity

/-- Settles O9: both sides of R86, times 65536, are one fraction by `tExact_eq_div` and `pExact_eq_div`. -/
theorem integerFormsEqualExactPolynomials : Obligations.IntegerFormsEqualExactPolynomials := by
  intro kt kp c rawT rawP ht hp
  have hT := tExact_eq_div c rawT ht
  have hP := pExact_eq_div c rawT rawP ht hp
  refine ⟨presDen_pos ht hp, ?_, ?_⟩
  · rw [presDen_eq_cast]
    push_cast [mul_div_right_comm] at hP ⊢
    linarith
  · push_cast [mul_div_right_comm] at hT
    rw [mul_comm 2, ← div_div]
    linarith

/-- R87: `TMP` before it is cut to its pattern. -/
theorem tempFixed_eq_floor {kt : Nat} (c : Coeffs) (rawT : Int) (ht : 0 < kt) :
    tempFixed kt c rawT = ⌊tExact kt c rawT * 65536⌋ := by
  rw [tExact_eq_div c rawT ht]
  exact ediv_eq_floor _ _

/-- R87: `PRS` before it is cut to its pattern. -/
theorem presFixed_eq_floor {kt kp : Nat} (c : Coeffs) (rawT rawP : Int) (ht : 0 < kt) (hp : 0 < kp) :
    presFixed kt kp c rawT rawP = ⌊pExact kt kp c rawT rawP * 65536⌋ := by
  rw [pExact_eq_div c rawT rawP ht hp, presFixed, presDen_eq_cast]
  exact ediv_eq_floor _ _

/-! ### The bounds of R91 -/

theorem normalised_maxRaw (k : Nat) : normalised (2 ^ 23) k = 2 ^ 23 / (k : ℚ) := by
  simp only [normalised, Int.cast_pow, Int.cast_ofNat]

theorem abs_add_le_of_le {x y B C : ℚ} (hx : |x| ≤ B) (hy : |y| ≤ C) : |x + y| ≤ B + C :=
  (abs_add_le x y).trans (add_le_add hx hy)

theorem abs_mul_le_of_le {x y B C : ℚ} (hx : |x| ≤ B) (hy : |y| ≤ C) : |x * y| ≤ B * C := by
  rw [abs_mul]
  exact mul_le_mul hx hy (abs_nonneg y) ((abs_nonneg x).trans hx)

theorem abs_tExact_le (kt : Nat) (c : Coeffs) (uT : Raw24) : |tExact kt c (rawCode uT)| ≤ tBound kt := by
  have h := abs_add_le_of_le (abs_mul_le_of_le (abs_toInt_le c.c0) (le_refl |(1 / 2 : ℚ)|))
    (abs_mul_le_of_le (abs_toInt_le c.c1) (abs_normalised_le uT kt))
  refine h.trans_eq ?_
  norm_num [tBound]

/-- The bound follows the grouping of R85 term by term. -/
theorem abs_pExact_le (kt kp : Nat) (c : Coeffs) (uT uP : Raw24) :
    |pExact kt kp c (rawCode uT) (rawCode uP)| ≤ pBound kt kp := by
  have ht := abs_normalised_le uT kt
  have hp := abs_normalised_le uP kp
  have hinner := abs_add_le_of_le (abs_toInt_le c.c20) (abs_mul_le_of_le hp (abs_toInt_le c.c30))
  have houter := abs_add_le_of_le (abs_toInt_le c.c10) (abs_mul_le_of_le hp hinner)
  have hcross := abs_add_le_of_le (abs_toInt_le c.c11) (abs_mul_le_of_le hp (abs_toInt_le c.c21))
  have h := abs_add_le_of_le
    (abs_add_le_of_le (abs_add_le_of_le (abs_toInt_le c.c00) (abs_mul_le_of_le hp houter))
      (abs_mul_le_of_le ht (abs_toInt_le c.c01)))
    (abs_mul_le_of_le (abs_mul_le_of_le ht hp) hcross)
  refine h.trans_eq ?_
  simp only [pBound]
  ring

/-- R6's check of the temperature bound, with the division multiplied out. -/
theorem temperatureBoundOk_iff {kt : Nat} (ht : 0 < kt) :
    Config.temperatureBoundOk kt = true ↔ tBound kt < 2 ^ 31 := by
  have hk : (0 : ℚ) < kt := by positivity
  have hfrac : tBound kt = ((2 ^ 10 * kt + 2 ^ 34 : Nat) : ℚ) / kt := by
    rw [tBound, normalised_maxRaw]
    push_cast
    field_simp
    ring
  rw [Config.temperatureBoundOk, decide_eq_true_iff, hfrac, div_lt_iff₀ hk]
  norm_cast

/-- R6's check of the pressure bound, with the divisions multiplied out. -/
theorem pressureBoundOk_iff {kt kp : Nat} (ht : 0 < kt) (hp : 0 < kp) :
    Config.pressureBoundOk kt kp = true ↔ pBound kt kp < 2 ^ 31 := by
  have hk : (0 : ℚ) < kt := by positivity
  have hq : (0 : ℚ) < kp := by positivity
  have hfrac : pBound kt kp = ((2 ^ 19 * kp ^ 3 * kt + 2 ^ 42 * kp ^ 2 * kt + 2 ^ 61 * kp * kt + 2 ^ 84 * kt
      + 2 ^ 38 * kp ^ 3 + 2 ^ 61 * kp ^ 2 + 2 ^ 84 * kp : Nat) : ℚ) / (kp ^ 3 * kt) := by
    simp only [pBound, normalised_maxRaw]
    push_cast
    field_simp
    ring
  rw [Config.pressureBoundOk, decide_eq_true_iff, hfrac, div_lt_iff₀ (by positivity), ← mul_assoc]
  norm_cast

theorem legalScale_bounds {scale : Vector Nat 8} (h : Config.legalScale scale = true) :
    Config.temperatureBoundOk scale[0] = true ∧ Config.pressureBoundOk scale[0] scale[1] = true := by
  simp only [Config.legalScale, Bool.and_eq_true] at h
  exact ⟨h.1.2, h.2⟩

theorem tBound_lt_of_legal (p : Params) : tBound p.kt < 2 ^ 31 :=
  (temperatureBoundOk_iff p.kt_pos).mp (legalScale_bounds p.legal).1

theorem pBound_lt_of_legal (p : Params) : pBound p.kt p.kp < 2 ^ 31 :=
  (pressureBoundOk_iff p.kt_pos p.kp_pos).mp (legalScale_bounds p.legal).2

/-- A number above `-2^31` by a unit of the Q32.16 format and below `2^31` has its floor inside 48 bits. -/
theorem abs_floor_lt {x : ℚ} (h0 : -2 ^ 31 + 1 / 2 ^ 16 ≤ x) (h1 : x < 2 ^ 31) : |⌊x * 65536⌋| < 2 ^ 47 := by
  rw [abs_lt]
  constructor
  · refine Int.lt_of_add_one_le (Int.le_floor.mpr ?_)
    push_cast
    linarith
  · refine Int.floor_lt.mpr ?_
    push_cast
    linarith

/-- The lower end has room for the floor: the bound's slack `2048 / KT` is `2^-23` of the bound's variable part. -/
theorem abs_tempFixed_lt (p : Params) (c : Coeffs) (uT : Raw24) : |tempFixed p.kt c (rawCode uT)| < 2 ^ 47 := by
  have hB := tBound_lt_of_legal p
  have hlow := tExact_gt c uT p.kt_pos
  have hhigh := (abs_le.mp (abs_tExact_le p.kt c uT)).2
  have hslack : (2048 : ℚ) / p.kt = (tBound p.kt - 1024) / 2 ^ 23 := by
    rw [tBound, normalised_maxRaw]
    ring
  rw [tempFixed_eq_floor c _ p.kt_pos]
  refine abs_floor_lt ?_ (hhigh.trans_lt hB)
  linarith

/-- With both quotients at most 1 the pressure bound is far from `2^31`. -/
theorem pBound_le_of_quotients_le_one {kt kp : Nat} (ht : normalised (2 ^ 23) kt ≤ 1) (hp : normalised (2 ^ 23) kp ≤ 1) :
    pBound kt kp ≤ 2 ^ 21 := by
  have ht0 := normalised_nonneg kt
  have hp0 := normalised_nonneg kp
  have h2 : normalised (2 ^ 23) kp ^ 2 ≤ 1 := pow_le_one₀ hp0 hp
  have h3 : normalised (2 ^ 23) kp ^ 3 ≤ 1 := pow_le_one₀ hp0 hp
  have h11 : normalised (2 ^ 23) kp * normalised (2 ^ 23) kt ≤ 1 := mul_le_one₀ hp ht0 ht
  have h21 : normalised (2 ^ 23) kp ^ 2 * normalised (2 ^ 23) kt ≤ 1 := mul_le_one₀ h2 ht0 ht
  simp only [pBound]
  linarith

/-- The lower end has room for the floor: a quotient above 1 gives `pExact_gt` a slack of at least `2^-8`, and without
one the bound is small. -/
theorem pExact_ge_of_legal (p : Params) (c : Coeffs) (uT uP : Raw24) :
    -2 ^ 31 + 1 / 2 ^ 16 ≤ pExact p.kt p.kp c (rawCode uT) (rawCode uP) := by
  have hlow := pExact_gt c uT uP p.kt_pos p.kp_pos
  have hB := pBound_lt_of_legal p
  have ht0 := normalised_nonneg p.kt
  have hp0 := normalised_nonneg p.kp
  have hslackP : (2 ^ 19 : ℚ) / p.kp = normalised (2 ^ 23) p.kp / 16 := by
    rw [normalised_maxRaw]
    ring
  have hslackT : (2 ^ 15 : ℚ) / p.kt = normalised (2 ^ 23) p.kt / 256 := by
    rw [normalised_maxRaw]
    ring
  have hsmall := pBound_le_of_quotients_le_one (kt := p.kt) (kp := p.kp)
  rw [hslackP, hslackT] at hlow
  generalize normalised (2 ^ 23) p.kp = a at hlow hp0 hsmall
  generalize normalised (2 ^ 23) p.kt = b at hlow ht0 hsmall
  rcases le_or_gt b 1 with ht | ht
  · rcases le_or_gt a 1 with hp | hp
    · linarith [hsmall ht hp]
    · linarith
  · linarith

theorem abs_presFixed_lt (p : Params) (c : Coeffs) (uT uP : Raw24) :
    |presFixed p.kt p.kp c (rawCode uT) (rawCode uP)| < 2 ^ 47 := by
  have hhigh := (abs_le.mp (abs_pExact_le p.kt p.kp c uT uP)).2
  rw [presFixed_eq_floor c _ _ p.kt_pos p.kp_pos]
  exact abs_floor_lt (pExact_ge_of_legal p c uT uP) (hhigh.trans_lt (pBound_lt_of_legal p))

/-- Ten times a 48-bit number, rounded to units of `2^16`. -/
theorem abs_dispTenths_le (x : Q3216) : |dispTenths x.toInt| ≤ 10 * 2 ^ 31 := by
  have h0 := BitVec.le_toInt x
  have h1 := BitVec.toInt_lt (x := x)
  rw [abs_le, dispTenths]
  split <;> omega

/-- Settles O11: the exact values by the triangle inequality, the integers as floors of them, the display from the 48-bit
range, and the default table by its numbers. -/
theorem readingsStayWithinTheBounds : Obligations.ReadingsStayWithinTheBounds := by
  refine ⟨fun kt kp c uT uP _ _ => ⟨?_, ?_⟩,
    fun p c uT uP => ⟨abs_tempFixed_lt p c uT, abs_presFixed_lt p c uT uP⟩,
    fun x => ⟨abs_dispTenths_le x, (abs_dispTenths_le x).trans_lt (by norm_num)⟩, ?_, ?_⟩
  · simpa only [tBound, normalised_maxRaw] using abs_tExact_le kt c uT
  · simpa only [pBound, normalised_maxRaw] using abs_pExact_le kt kp c uT uP
  · norm_num [tBound, normalised, Params.kt, Params.default, Config.defaultScale]
  · norm_num [pBound, normalised, Params.kt, Params.kp, Params.default, Config.defaultScale]

/-! ### What SAMPLE writes (R82, R87) -/

theorem exec_sample (s : State) (uT uP : Raw24) : exec (.sample uT uP) s = .next { s with
    regs := { s.regs with tmp := sampledTmp s.params s.regs.cal uT, prs := sampledPrs s.params s.regs.cal uT uP }
    out := s.out ++ [{ rsp := [0x00], hit := 0, edge := 0 }] } := rfl

/-- A number inside 48 bits reads back from its pattern. -/
theorem toInt_tc_of_abs_lt {x : Int} (h : |x| < 2 ^ 47) : (tc 48 x).toInt = x := by
  obtain ⟨h0, h1⟩ := abs_lt.mp h
  exact toInt_tc (by decide) h0.le h1

theorem sampledTmp_toInt (p : Params) (c : Coeffs) (uT : Raw24) :
    (sampledTmp p c uT).toInt = ⌊tExact p.kt c (rawCode uT) * 65536⌋ := by
  rw [← tempFixed_eq_floor c _ p.kt_pos]
  exact toInt_tc_of_abs_lt (abs_tempFixed_lt p c uT)

theorem sampledPrs_toInt (p : Params) (c : Coeffs) (uT uP : Raw24) :
    (sampledPrs p c uT uP).toInt = ⌊pExact p.kt p.kp c (rawCode uT) (rawCode uP) * 65536⌋ := by
  rw [← presFixed_eq_floor c _ _ p.kt_pos p.kp_pos]
  exact toInt_tc_of_abs_lt (abs_presFixed_lt p c uT uP)

/-- Settles O8: the two patterns of `exec_sample` read back as the floors because they do not overflow (R91). -/
theorem sampleWritesFlooredExactReadings : Obligations.SampleWritesFlooredExactReadings := by
  refine ⟨fun s uT uP => ?_, wrongLengthAnswersIll_code (o := .sample) rfl⟩
  exact ⟨_, _, exec_sample s uT uP, sampledTmp_toInt s.params s.regs.cal uT,
    sampledPrs_toInt s.params s.regs.cal uT uP⟩

/-! ### The laws of R93 -/

theorem tempFixed_zeroCoeffs (kt : Nat) (rawT : Int) : tempFixed kt Coeffs.zero rawT = 0 := by
  simp [tempFixed, tempNum, Coeffs.zero]

theorem presFixed_zeroCoeffs (kt kp : Nat) (rawT rawP : Int) : presFixed kt kp Coeffs.zero rawT rawP = 0 := by
  simp [presFixed, presNum, Coeffs.zero]

theorem tempFixed_zeroCode {kt : Nat} (c : Coeffs) (ht : 0 < kt) : tempFixed kt c 0 = c.c0.toInt * 32768 := by
  have hnum : tempNum kt c 0 * 32768 = c.c0.toInt * 32768 * kt := by
    rw [tempNum]
    ring
  rw [tempFixed, hnum, Int.mul_ediv_cancel _ (by positivity)]

theorem presFixed_zeroCodes {kt kp : Nat} (c : Coeffs) (ht : 0 < kt) (hp : 0 < kp) :
    presFixed kt kp c 0 0 = c.c00.toInt * 65536 := by
  have hnum : presNum kt kp c 0 0 * 65536 = c.c00.toInt * 65536 * presDen kt kp := by
    simp only [presNum, presDen]
    ring
  rw [presFixed, hnum, Int.mul_ediv_cancel _ (presDen_pos ht hp).ne']

/-- R93 (d): without a remainder there is nothing to floor. -/
theorem tempFixed_exact {kt : Nat} (c : Coeffs) (rawT : Int) (ht : 0 < kt)
    (hdvd : (kt : Int) ∣ c.c1.toInt * rawT * 32768) : (tempFixed kt c rawT : ℚ) / 65536 = tExact kt c rawT := by
  have hk : ((kt : Int) : ℚ) ≠ 0 := by positivity
  have hsum : tempNum kt c rawT * 32768 = kt * (c.c0.toInt * 32768) + 2 * (c.c1.toInt * rawT * 32768) := by
    rw [tempNum]
    ring
  have hnum : (kt : Int) ∣ tempNum kt c rawT * 32768 := hsum ▸ dvd_add (dvd_mul_right _ _) (hdvd.mul_left 2)
  rw [tempFixed, Int.cast_div hnum hk, Int.cast_natCast, ← tExact_eq_div c rawT ht]
  exact mul_div_cancel_right₀ _ (by norm_num)

theorem sampledTmp_zeroCoeffs (p : Params) (uT : Raw24) : sampledTmp p Coeffs.zero uT = 0 := by
  rw [sampledTmp, tempFixed_zeroCoeffs]
  rfl

theorem sampledPrs_zeroCoeffs (p : Params) (uT uP : Raw24) : sampledPrs p Coeffs.zero uT uP = 0 := by
  rw [sampledPrs, presFixed_zeroCoeffs]
  rfl

theorem tc_dispTenths_zero : tc 48 (dispTenths (0 : Q3216).toInt) = 0 := by decide

theorem sampledTmp_congr {p q : Params} (c : Coeffs) (uT : Raw24) (h0 : p.scale[0] = q.scale[0]) :
    sampledTmp p c uT = sampledTmp q c uT := by
  rw [sampledTmp, sampledTmp, Params.kt, Params.kt, h0]

theorem sampledPrs_congr {p q : Params} (c : Coeffs) (uT uP : Raw24) (h0 : p.scale[0] = q.scale[0])
    (h1 : p.scale[1] = q.scale[1]) : sampledPrs p c uT uP = sampledPrs q c uT uP := by
  rw [sampledPrs, sampledPrs, Params.kt, Params.kt, Params.kp, Params.kp, h0, h1]

/-- Settles O13: each clause is a law of the patterns `exec_sample` writes, or `tempFixed_exact`; the default `KT` is
`16 * 32768`. -/
theorem sampleLaws : Obligations.SampleLaws := by
  refine ⟨fun s q uT uP hcal h0 h1 => ?purity, fun s uT uP hcal => ?zeroCoeffs, fun s => ?zeroCodes,
    fun kt c rawT => tempFixed_exact c rawT, fun c rawT h => ?defaultTable⟩
  case purity =>
    refine ⟨_, _, exec_sample s uT uP, exec_sample q uT uP, ?_, ?_⟩
    · exact hcal ▸ sampledTmp_congr s.regs.cal uT h0
    · exact hcal ▸ sampledPrs_congr s.regs.cal uT uP h0 h1
  case zeroCoeffs =>
    refine ⟨_, exec_sample s uT uP, ?_⟩
    rw [hcal, sampledTmp_zeroCoeffs, sampledPrs_zeroCoeffs]
    exact ⟨rfl, rfl, tc_dispTenths_zero, tc_dispTenths_zero⟩
  case zeroCodes =>
    refine ⟨_, exec_sample s 0 0, ?_, ?_⟩
    · exact congrArg (tc 48) (tempFixed_zeroCode s.regs.cal s.params.kt_pos)
    · exact congrArg (tc 48) (presFixed_zeroCodes s.regs.cal s.params.kt_pos s.params.kp_pos)
  case defaultTable =>
    exact tempFixed_exact c rawT Params.default.kt_pos (mul_dvd_mul_right h 32768)

/-! ### The display rounding (R89) -/

theorem rnd10_of_nonneg {q : ℚ} (h : 0 ≤ q) : rnd10 q = ⌊10 * q + 1 / 2⌋ := if_pos h

theorem rnd10_of_neg {q : ℚ} (h : q < 0) : rnd10 q = -⌊-10 * q + 1 / 2⌋ := if_neg h.not_ge

theorem rnd10_zero : rnd10 0 = 0 := by norm_num [rnd10]

theorem rnd10_neg (q : ℚ) : rnd10 (-q) = -rnd10 q := by
  rcases lt_trichotomy q 0 with h | rfl | h
  · rw [rnd10_of_nonneg (neg_nonneg.mpr h.le), rnd10_of_neg h, neg_neg, neg_mul_comm]
  · rw [neg_zero, rnd10_zero, neg_zero]
  · rw [rnd10_of_neg (neg_lt_zero.mpr h), rnd10_of_nonneg h.le, neg_mul_neg]

/-- For `0 ≤ q` the floor of `10 q + 1/2` is the nearest integer, and at a tie it is the upper neighbour. -/
theorem rnd10_nearest_of_nonneg {q : ℚ} (h : 0 ≤ q) :
    |10 * q - rnd10 q| ≤ 1 / 2 ∧ (|10 * q - rnd10 q| = 1 / 2 → |10 * q| < |(rnd10 q : ℚ)|) := by
  rw [rnd10_of_nonneg h]
  have hle := Int.floor_le (10 * q + 1 / 2)
  have hlt := Int.lt_floor_add_one (10 * q + 1 / 2)
  refine ⟨abs_le.mpr ⟨by linarith, by linarith⟩, fun htie => ?_⟩
  obtain hupper | hlower := eq_or_eq_neg_of_abs_eq htie
  · linarith
  · rw [abs_of_nonneg (by positivity)]
    exact lt_of_lt_of_le (by linarith) (le_abs_self _)

theorem rnd10_nearest (q : ℚ) :
    |10 * q - rnd10 q| ≤ 1 / 2 ∧ (|10 * q - rnd10 q| = 1 / 2 → |10 * q| < |(rnd10 q : ℚ)|) := by
  rcases le_total 0 q with h | h
  · exact rnd10_nearest_of_nonneg h
  · have hneg := rnd10_nearest_of_nonneg (neg_nonneg.mpr h)
    rwa [rnd10_neg, mul_neg, Int.cast_neg, neg_sub_neg, abs_sub_comm, abs_neg, abs_neg] at hneg

/-- Settles O15: `rnd10` is odd, so the nearest integer is a matter of `0 ≤ q`. -/
theorem roundingIsNearestTiesAway : Obligations.RoundingIsNearestTiesAway := by
  refine ⟨fun q => ?_, ?_⟩
  · obtain ⟨hnear, htie⟩ := rnd10_nearest q
    exact ⟨hnear, htie, rnd10_neg q⟩
  · norm_num [rnd10]

end Machine
end Sys2Proof
end

section
/-! SUPPORT. What an armed CMP gives, bit by bit (R102), and what the other commands leave of it until the next CMP
(R17, R18). -/

namespace Sys2Proof
namespace Machine

/-! ### The conditions -/

/-- The conditions do not look at the event state. -/
theorem condBits_setEvents (p : Params) (r : Regs) (cprev evf : BitVec 4) :
    condBits p (r.setEvents cprev evf) = condBits p r := rfl

theorem condBits_setEvf (p : Params) (r : Regs) (evf : BitVec 4) : condBits p (r.setEvf evf) = condBits p r := rfl

/-- R98: with `PARITY` true the temperature pair is never compared. -/
theorem condBits_setTemperature_of_parity {p : Params} (r : Regs) (upper lower : Q3216) (hp : p.parity = true) :
    condBits p (r.setTemperature upper lower) = condBits p r := by
  simp [condBits, upperForTemperature, lowerForTemperature, hp]

/-! ### Setting thresholds while armed (R99) -/

theorem Regs.setPressure_of_armed {r : Regs} (upper lower : Q3216) (ha : r.armed = true) :
    r.setPressure upper lower = { r with upp := upper, lop := lower } := by
  rw [Regs.setPressure, ha]

theorem Regs.setTemperature_of_armed {r : Regs} (upper lower : Q3216) (ha : r.armed = true) :
    r.setTemperature upper lower = { r with upt := upper, lot := lower } := by
  rw [Regs.setTemperature, ha]

/-! ### An armed CMP -/

/-- The output of a CMP while armed (R102). -/
def cmpOutput (s : State) : Output :=
  let hit := condBits s.params s.regs
  let edge := edgeOf hit s.regs.cprev
  { rsp := [0x00, cmpPayload edge hit], hit := hit, edge := edge }

@[simp] theorem compareArmed_out (s : State) : (compareArmed s).out = s.out ++ [cmpOutput s] := rfl
@[simp] theorem compareArmed_params (s : State) : (compareArmed s).params = s.params := rfl
@[simp] theorem compareArmed_rst (s : State) : (compareArmed s).rst = s.rst := rfl
@[simp] theorem compareArmed_inputs (s : State) : (compareArmed s).inputs = s.inputs := rfl
@[simp] theorem compareArmed_regs (s : State) : (compareArmed s).regs =
    s.regs.setEvents (cmpOutput s).hit (evfAfterCmp s.regs.evf (cmpOutput s).edge) := rfl
@[simp] theorem cmpOutput_hit (s : State) : (cmpOutput s).hit = condBits s.params s.regs := rfl
@[simp] theorem cmpOutput_edge (s : State) : (cmpOutput s).edge = edgeOf (cmpOutput s).hit s.regs.cprev := rfl

theorem exec_cmp_armed {s : State} (ha : s.regs.armed = true) : exec .cmp s = .next (compareArmed s) := execCmp_armed ha

/-- `EDGE` is the high nibble of the payload and `HIT` the low one (R54). -/
theorem cmpPayload_toNat (edge hit : BitVec 4) : (cmpPayload edge hit).toNat = 16 * edge.toNat + hit.toNat := by
  rw [cmpPayload, append_toNat]
  omega

theorem compareArmed_evf_bit (s : State) (i : Nat) :
    (compareArmed s).regs.evf.getLsbD i = (s.regs.evf.getLsbD i || (cmpOutput s).edge.getLsbD i) :=
  evfAfterCmp_bit ..

/-- A condition that holds and is not remembered gives its edge and sets its flag. -/
theorem compareArmed_new {s : State} {i : Nat} (hprev : s.regs.cprev.getLsbD i = false)
    (hcond : (condBits s.params s.regs).getLsbD i = true) :
    (cmpOutput s).edge.getLsbD i = true ∧ (compareArmed s).regs.evf.getLsbD i = true := by
  have hedge : (cmpOutput s).edge.getLsbD i = true := by simp [edgeOf_bit, hcond, hprev]
  exact ⟨hedge, by rw [compareArmed_evf_bit, hedge, Bool.or_true]⟩

/-- A condition that is remembered gives no edge and leaves its flag. -/
theorem compareArmed_remembered {s : State} {i : Nat} (hprev : s.regs.cprev.getLsbD i = true) :
    (cmpOutput s).edge.getLsbD i = false ∧ (compareArmed s).regs.evf.getLsbD i = s.regs.evf.getLsbD i := by
  have hedge : (cmpOutput s).edge.getLsbD i = false := by simp [edgeOf_bit, hprev]
  exact ⟨hedge, by rw [compareArmed_evf_bit, hedge, Bool.or_false]⟩

/-- Two CMPs in a row: the second finds the whole `HIT` of the first remembered. -/
theorem cmpOutput_compareArmed (s : State) :
    (cmpOutput (compareArmed s)).hit = (cmpOutput s).hit ∧ (cmpOutput (compareArmed s)).edge = 0 := by
  have hhit : (cmpOutput (compareArmed s)).hit = (cmpOutput s).hit := condBits_setEvents ..
  refine ⟨hhit, ?_⟩
  rw [cmpOutput_edge, hhit]
  exact BitVec.and_not_self _

theorem compareArmed_twice_regs (s : State) : (compareArmed (compareArmed s)).regs = (compareArmed s).regs := by
  obtain ⟨hhit, hedge⟩ := cmpOutput_compareArmed s
  rw [compareArmed_regs (compareArmed s), hhit, hedge, compareArmed_regs s]
  simp [Regs.setEvents, evfAfterCmp]

/-! ### Between two CMPs -/

/-- CMP has one packet (R54). -/
theorem decode_eq_cmp {p : Packet} (h : decode p = .ok .cmp) : p = encode .cmp := by
  cases p with
  | nil => cases h
  | cons b args =>
    obtain rfl : b = Opcode.cmp.code := Option.some.inj (decode_head h)
    cases args with
    | nil => rfl
    | cons x xs => rw [decode_wrongLength (by simp [Opcode.len])] at h; cases h

/-- No operation disarms the monitor (R17). -/
theorem exec_keeps_armed {i : Instr} {s t : State} (ha : s.regs.armed = true) (h : exec i s = .next t) :
    t.regs.armed = true := by
  obtain e | ⟨_, _, _, e⟩ | ⟨_, _, _, e⟩ | ⟨_, _, _, e⟩ | ⟨_, _, _, e⟩ | ⟨_, _, e⟩ | ⟨_, _, e⟩ := exec_regs_cases h <;>
    simp [e, ha]

/-- Only CMP writes `CPREV` (R18). -/
theorem exec_keeps_cprev {i : Instr} {s t : State} (hi : i ≠ .cmp) (h : exec i s = .next t) :
    t.regs.cprev = s.regs.cprev := by
  obtain e | ⟨_, _, _, e⟩ | ⟨_, _, _, e⟩ | ⟨_, _, _, e⟩ | ⟨_, _, _, e⟩ | ⟨rfl, _⟩ | ⟨_, _, e⟩ := exec_regs_cases h
  case inr.inr.inr.inr.inr.inl => exact absurd rfl hi
  all_goals simp [e]

theorem runPacket_keeps_monitor {p : Packet} {s t : State} (hp : p ≠ encode .cmp) (ha : s.regs.armed = true)
    (h : runPacket p s = .next t) : t.regs.armed = true ∧ t.regs.cprev = s.regs.cprev := by
  cases hd : decode p with
  | ok i =>
    rw [runPacket_ok s hd] at h
    have hi : i ≠ .cmp := by
      rintro rfl
      exact hp (decode_eq_cmp hd)
    exact ⟨exec_keeps_armed ha h, exec_keeps_cprev hi h⟩
  | error e => cases raiseIll_next (runPacket_error s hd ▸ h); exact ⟨ha, rfl⟩

/-- An armed block that remembers the conditions `c`, with neither a reset nor a CMP to come. -/
structure AwaitsNoCmp (c : BitVec 4) (s : State) : Prop where
  released : s.rst = false
  armed : s.regs.armed = true
  cprev : s.regs.cprev = c
  no_reset : Input.reset ∉ s.inputs
  no_cmp : ∀ who, Input.command who (encode .cmp) ∉ s.inputs

theorem AwaitsNoCmp.step {c : BitVec 4} {s t : State} (h : AwaitsNoCmp c s) (hs : step s = .next t) :
    AwaitsNoCmp c t := by
  obtain ⟨hrst, harmed, hcprev, hreset, hcmp⟩ := h
  cases hin : s.inputs with
  | nil =>
    rw [Machine.step, hin] at hs
    cases idle_next hs
    exact ⟨hrst, harmed, hcprev, hreset, hcmp⟩
  | cons x rest =>
    have hrest : t.inputs = rest := step_inputs hin hs
    rw [hin] at hreset hcmp
    have hkeeps : t.rst = false ∧ t.regs.armed = true ∧ t.regs.cprev = c := by
      cases x with
      | reset => exact absurd List.mem_cons_self hreset
      | release =>
        cases (step_release hin).symm.trans hs
        simpa [hrst] using And.intro harmed hcprev
      | command who p =>
        have hp : p ≠ encode .cmp := by
          rintro rfl
          exact hcmp who List.mem_cons_self
        rw [step_command hin, acceptPacket_released (s := s.setInputs rest) p hrst] at hs
        obtain ⟨ha, hc⟩ := runPacket_keeps_monitor (s := s.setInputs rest) hp harmed hs
        exact ⟨(runPacket_rst hs).trans hrst, ha, hc.trans hcprev⟩
    obtain ⟨hrst', harmed', hcprev'⟩ := hkeeps
    exact ⟨hrst', harmed', hcprev', hrest ▸ fun hm => hreset (List.mem_cons_of_mem x hm),
      hrest ▸ fun who hm => hcmp who (List.mem_cons_of_mem x hm)⟩

theorem AwaitsNoCmp.run {c : BitVec 4} {k : Nat} {s t : State} (h : AwaitsNoCmp c s)
    (hr : Sys2Proof.core.run k s = .next t) : AwaitsNoCmp c t := by
  induction k generalizing s with
  | zero => cases hr; exact h
  | succ k ih =>
    obtain ⟨u, hu, hr⟩ := run_succ.mp hr
    exact ih (h.step hu) hr

/-! ### The pressures of R107 -/

/-- The thresholds of R107, upper 1020 and lower 990, in an armed monitor. -/
structure ScriptThresholds (s : State) : Prop where
  armed : s.regs.armed = true
  upp : s.regs.upp = tc 48 (1020 * 65536)
  lop : s.regs.lop = tc 48 (990 * 65536)

/-- The state in which `PRS` holds a whole number (R107). -/
def State.atPressure (n : Int) (s : State) : State := { s with regs := { s.regs with prs := tc 48 (n * 65536) } }

/-- The block after a CMP at that pressure. -/
def scriptCmp (n : Int) (s : State) : State := compareArmed (s.atPressure n)

/-- The output of that CMP. -/
def scriptOutput (n : Int) (s : State) : Output := cmpOutput (s.atPressure n)

theorem scriptCmp_out (n : Int) (s : State) : (scriptCmp n s).out = s.out ++ [scriptOutput n s] := rfl

theorem scriptCmp_four_out (a b c d : Int) (s : State) :
    (scriptCmp d (scriptCmp c (scriptCmp b (scriptCmp a s)))).out = s.out ++ [scriptOutput a s,
      scriptOutput b (scriptCmp a s), scriptOutput c (scriptCmp b (scriptCmp a s)),
      scriptOutput d (scriptCmp c (scriptCmp b (scriptCmp a s)))] := by
  simp [scriptCmp_out]

/-- The two pressure conditions at a whole pressure, against those thresholds (R100). -/
def scriptBits (n : Int) : BitVec 2 :=
  BitVec.ofBool (decide ((tc 48 (n * 65536)).toInt ≤ (tc 48 (990 * 65536)).toInt))
    ++ BitVec.ofBool (decide ((tc 48 (1020 * 65536)).toInt ≤ (tc 48 (n * 65536)).toInt))

theorem extractLsb'_two (x : BitVec 4) :
    x.extractLsb' 0 2 = BitVec.ofBool (x.getLsbD 1) ++ BitVec.ofBool (x.getLsbD 0) := by
  decide +revert

theorem edgeOf_extractLsb' (hit cprev : BitVec 4) :
    (edgeOf hit cprev).extractLsb' 0 2 = hit.extractLsb' 0 2 &&& ~~~cprev.extractLsb' 0 2 := by
  decide +revert

namespace ScriptThresholds

variable {s : State} (h : ScriptThresholds s) (n : Int)
include h

theorem exec_cmp : exec .cmp (s.atPressure n) = .next (scriptCmp n s) := exec_cmp_armed h.armed

theorem next : ScriptThresholds (scriptCmp n s) := ⟨h.armed, h.upp, h.lop⟩

theorem hit : (scriptOutput n s).hit.extractLsb' 0 2 = scriptBits n := by
  rw [extractLsb'_two, scriptOutput, cmpOutput_hit, condBits_bit0, condBits_bit1]
  simp only [State.atPressure, scriptBits, h.upp, h.lop]

theorem edge : (scriptOutput n s).edge.extractLsb' 0 2 = scriptBits n &&& ~~~s.regs.cprev.extractLsb' 0 2 :=
  (edgeOf_extractLsb' ..).trans (congrArg (· &&& _) (h.hit n))

/-- A scripted CMP remembers its own bits for the next. -/
theorem edge_next (m : Int) : (scriptOutput n (scriptCmp m s)).edge.extractLsb' 0 2 = scriptBits n &&& ~~~scriptBits m :=
  ((h.next m).edge n).trans (congrArg (_ &&& ~~~·) (h.hit m))

/-- The PARITY remark of R107. -/
theorem temperatureLow (hp : s.params.parity = true) (ht : s.regs.tmp.toInt < 990 * 65536) :
    (scriptOutput n s).hit.getLsbD 3 = true := by
  have hlop : s.regs.lop.toInt = 990 * 65536 := by rw [h.lop]; decide
  rw [scriptOutput, cmpOutput_hit, condBits_bit3, decide_eq_true_eq]
  simpa [State.atPressure, hp, hlop] using ht.le

end ScriptThresholds

end Machine
end Sys2Proof
end

section
/-! The statements about the threshold monitor's commands: the thresholds (R97 to R99), CMP (R100 to R103, R107) and
EVCLR (R106). -/

namespace Sys2Proof
namespace Machine

open Sys2Proof.Safety

/-- Settles O20: one equation of CMP per level of `ARMED`; the vectors and the payload bit by bit. -/
theorem cmpComparesAndRaises : Obligations.CmpComparesAndRaises := by
  refine ⟨fun s => ⟨execCmp_idle, fun ha => ⟨_, _, _, execCmp_armed ha, condBits_bit0 _ _, condBits_bit1 _ _,
    condBits_bit2 _ _, condBits_bit3 _ _, edgeOf_bit _ _, cmpPayload_toNat _ _⟩⟩, wrongLengthAnswersIll_code (o := .cmp) rfl⟩

/-- Settles O21: the commands between the two CMPs keep `ARMED` and `CPREV` (`AwaitsNoCmp.run`), so the second finds the
condition remembered. -/
theorem persistentConditionGivesOneEdge : Obligations.PersistentConditionGivesOneEdge := by
  constructor
  · intro i k s t u _ hheld ha hprev hcond hreset hcmp ht hrun hcond'
    cases (exec_cmp_armed ha).symm.trans ht
    have hrst : s.rst = false := by
      rw [← Bool.not_eq_true]
      intro hr
      simp [hheld hr] at ha
    have hwait : AwaitsNoCmp (condBits s.params s.regs) (compareArmed s) := ⟨hrst, ha, rfl, hreset, hcmp⟩
    obtain ⟨-, ha', hcprev, -, -⟩ := hwait.run hrun
    obtain ⟨hedge, hevf⟩ := compareArmed_new hprev hcond
    obtain ⟨hedge', hevf'⟩ := compareArmed_remembered (s := u) (hcprev ▸ hcond)
    exact ⟨compareArmed u, cmpOutput s, cmpOutput u, rfl, hcond, hedge, hevf, exec_cmp_armed ha', rfl, hcond', hedge',
      hevf'⟩
  · intro s ha
    obtain ⟨hhit, hedge⟩ := cmpOutput_compareArmed s
    exact ⟨compareArmed s, compareArmed (compareArmed s), cmpOutput s, cmpOutput (compareArmed s), exec_cmp_armed ha, rfl,
      exec_cmp_armed (s := compareArmed s) ha, rfl, hhit, hedge, compareArmed_twice_regs s⟩

/-- Settles O24: EVCLR writes the flags alone, so the conditions and `CPREV` are the same at the CMP after it. -/
theorem evclrClearsTheMaskedFlags : Obligations.EvclrClearsTheMaskedFlags := by
  refine ⟨fun s m => ⟨_, rfl, evfAfterClear_bit _ _⟩, fun s b1 hb => runPacket_illegal s (.evclrReserved b1 hb),
    wrongLengthAnswersIll_code (o := .evclr) rfl, fun s m i _ ha hprev hcond => ?_⟩
  let t := respond .ok [] (s.setRegs (s.regs.setEvf (evfAfterClear s.regs.evf m)))
  obtain ⟨hedge, hevf⟩ := compareArmed_remembered (s := t) hprev
  have hcond' : (condBits t.params t.regs).getLsbD i = true := by simpa [t, condBits_setEvf] using hcond
  exact ⟨t, compareArmed t, cmpOutput t, rfl, exec_cmp_armed (s := t) ha, rfl, hcond', hedge, hevf⟩

/-- Settles O26: each CMP compares its own pressure and remembers its bits for the next. -/
theorem scriptedPressuresRaiseHighThenLow : Obligations.ScriptedPressuresRaiseHighThenLow := by
  intro s ha hcprev hupp hlop
  have h1 : ScriptThresholds s := ⟨ha, hupp, hlop⟩
  have h2 := h1.next 1025
  have h3 := h2.next 1015
  have h4 := h3.next 985
  refine ⟨_, _, _, _, _, _, _, _, h1.exec_cmp 1025, h2.exec_cmp 1015, h3.exec_cmp 985, h4.exec_cmp 1000,
    scriptCmp_four_out .., ?_, ?_, fun hp ht => ?_⟩
  · simp only [List.map, h1.hit, h2.hit, h3.hit, h4.hit]
    decide
  · simp only [List.map, h1.edge, h1.edge_next, h2.edge_next, h3.edge_next, hcprev]
    decide
  · simp only [List.forall_mem_cons]
    exact ⟨h1.temperatureLow _ hp ht, h2.temperatureLow _ hp ht, h3.temperatureLow _ hp ht, h4.temperatureLow _ hp ht,
      List.forall_mem_nil _⟩

/-- Settles O17: SETTHRP's equation, and R47. -/
theorem setthrpWritesPressureThresholds : Obligations.SetthrpWritesPressureThresholds :=
  ⟨fun _ _ _ => rfl, wrongLengthAnswersIll_code (o := .setthrp) rfl⟩

/-- Settles O18: SETTHRT's equation, `PARITY`'s choice of thresholds, and R47. -/
theorem setthrtWritesTemperatureThresholds : Obligations.SetthrtWritesTemperatureThresholds :=
  ⟨fun _ _ _ => rfl, fun _ r u l hp => condBits_setTemperature_of_parity r u l hp,
    wrongLengthAnswersIll_code (o := .setthrt) rfl⟩

/-- Settles O19: the setters write `ARMED` with the value it has. -/
theorem armingIsIdempotent : Obligations.ArmingIsIdempotent := by
  intro s upper lower ha
  have hrise (t : State) : armedRises s t = false := by simp [armedRises, State.armedO, ha]
  exact ⟨⟨_, rfl, Regs.setPressure_of_armed upper lower ha, rfl, hrise _⟩,
    ⟨_, rfl, Regs.setTemperature_of_armed upper lower ha, rfl, hrise _⟩⟩

end Machine
end Sys2Proof
end

section
/-! The statement about RD: the register map of R113, written in the spec's terms, is what the model reads (R114). -/

namespace Sys2Proof
namespace Machine

open Sys2Proof.Safety

/-! ### The displayed tenths and STATUS in the spec's terms -/

/-- R90: the integer form of the display is `rnd10` of the stored value, the floor of the same fraction on either side of
zero. -/
theorem dispTenths_eq_rnd10 (x : Int) : dispTenths x = rnd10 ((x : ℚ) / 65536) := by
  have hround (y : Int) : (10 * y + 32768) / 65536 = ⌊10 * ((y : ℚ) / 65536) + 1 / 2⌋ := by
    rw [show (65536 : Int) = (65536 : ℕ) from rfl, ediv_eq_floor]
    congr 1
    push_cast
    ring
  rcases le_or_gt 0 x with hx | hx
  · rw [dispTenths, if_pos (by omega), rnd10_of_nonneg (by positivity), hround]
  · have hq : (x : ℚ) / 65536 < 0 := div_neg_of_neg_of_pos (by exact_mod_cast hx) (by norm_num)
    rw [dispTenths, if_neg (by omega), rnd10_of_neg hq, ← mul_neg, hround, Int.cast_neg, neg_div, neg_mul_comm]

/-- R20: the fields of STATUS weighted by the bits they start at. -/
theorem statusWord_eq_ofNat (r : Regs) : statusWord r =
    BitVec.ofNat 48 (r.armed.toNat + 2 * r.calv.toNat + 16 * r.evf.toNat + 256 * r.cprev.toNat) := by
  have hevf := r.evf.isLt
  have hcprev := r.cprev.isLt
  have harmed := r.armed.toNat_lt
  have hcalv := r.calv.toNat_lt
  apply BitVec.eq_of_toNat_eq
  simp only [statusWord, append_toNat, BitVec.toNat_ofBool, BitVec.toNat_ofNat]
  omega

/-! ### The register map -/

/-- The registers of R113 beside their numbers, all but the eight SCALE entries, in the order of `registerTable`. -/
def registersByNumber : List (BitVec 8 × RegName) :=
  [(0x00, .c0), (0x01, .c1), (0x02, .c00), (0x03, .c10), (0x04, .c01), (0x05, .c11), (0x06, .c20), (0x07, .c21),
   (0x08, .c30), (0x10, .tmp), (0x11, .prs), (0x12, .dispT), (0x13, .dispP), (0x20, .upp), (0x21, .lop), (0x22, .upt),
   (0x23, .lot), (0x30, .status), (0x31, .pollms)]

theorem regOf_registersByNumber : ∀ e ∈ registersByNumber, regOf e.1 = some e.2 := by decide

theorem regOf_scale : ∀ i : Fin 8, regOf (BitVec.ofNat 8 (0x40 + i)) = some (.scale i) := by decide

/-- R113: the values of the spec's table are those `readReg` returns; a sign extension is `tc` of the signed value by
definition. -/
theorem registerTable_eq_readReg (p : Params) (r : Regs) :
    registerTable r = registersByNumber.map (fun e => (e.1, readReg p r e.2)) := by
  simp only [registerTable, registersByNumber, List.map, readReg, dispTenths_eq_rnd10, statusWord_eq_ofNat]
  rfl

/-- R8: a SCALE entry inside 47 bits is its own pattern. -/
theorem scaleReadOut_toNat {p : Params} {i : Fin 8} (h : p.scale[i] < 2 ^ 47) :
    (scaleReadOut p i).toNat = p.scale[i] := by
  rw [scaleReadOut, if_pos h, tc, BitVec.ofInt_natCast, BitVec.toNat_ofNat, Nat.mod_eq_of_lt (h.trans (by decide))]

/-- Settles O27: the table's entries and the SCALE entries are the registers `regOf` names, the other numbers are
ill-formed. -/
theorem rdAnswersTheRegisterMap : Obligations.RdAnswersTheRegisterMap := by
  refine ⟨fun s => ⟨fun n v hmem => ?_, fun i => ?_, fun n hn => exec_illFormed s (i := .rd n) hn⟩,
    wrongLengthAnswersIll_code (o := .rd) rfl⟩
  · rw [registerTable_eq_readReg s.params] at hmem
    obtain ⟨⟨_, reg⟩, he, hv⟩ := List.mem_map.mp hmem
    cases hv
    exact execRd_some s (regOf_registersByNumber _ he)
  · exact ⟨_, execRd_some s (regOf_scale i), scaleReadOut_toNat⟩

end Machine
end Sys2Proof
end

section
/-! SUPPORT. The platform's invariant along an execution: what a released block keeps over a requester's packets, that a
move keeps `PlatformInv`, and that a prefix of an execution is a run. -/

namespace Sys2Proof
namespace Machine

open Sys2Proof.Safety

/-! ### What a released block keeps over packets -/

theorem exec_keeps_calv {i : Instr} {s t : State} (hi : i.opcode ≠ .ldcal) (h : exec i s = .next t) :
    t.regs.calv = s.regs.calv := by
  obtain e | ⟨_, rfl, _⟩ | ⟨_, _, _, e⟩ | ⟨_, _, _, e⟩ | ⟨_, _, _, e⟩ | ⟨_, _, e⟩ | ⟨_, _, e⟩ := exec_regs_cases h
  case inr.inl => exact absurd rfl hi
  all_goals simp [e]

theorem runPacket_keeps_armed {p : Packet} {s t : State} (h : runPacket p s = .next t) (ha : s.regs.armed = true) :
    t.regs.armed = true := by
  cases hd : decode p with
  | ok i => exact exec_keeps_armed ha (runPacket_ok s hd ▸ h)
  | error e => cases raiseIll_next (runPacket_error s hd ▸ h); exact ha

theorem runPacket_keeps_calv {p : Packet} {s t : State} (h : runPacket p s = .next t) (hp : isLdcal p = false) :
    t.regs.calv = s.regs.calv := by
  cases hd : decode p with
  | ok i =>
    refine exec_keeps_calv (fun hi => ?_) (runPacket_ok s hd ▸ h)
    simp [isLdcal, decode_head hd, hi] at hp
  | error e => cases raiseIll_next (runPacket_error s hd ▸ h); rfl

theorem State.take_command {who : Requester} {p : Packet} {s t : State} (hr : s.rst = false) :
    s.take (.command who p) = some t ↔ runPacket p s = .next t := by
  rw [State.take_eq_some, step_command rfl]
  exact iff_of_eq (congrArg (· = _) (acceptPacket_released p hr))

/-- Frames leave a released block released and armed if it was, and only an LDCAL among them sets `CALV`. -/
theorem State.takeAll_commands {who : Requester} {ps : List Packet} {s t : State} (hr : s.rst = false)
    (h : State.takeAll (ps.map (.command who)) s = some t) :
    t.rst = false ∧ t.inputs = s.inputs ∧ (s.regs.armed = true → t.regs.armed = true)
      ∧ ((∀ p ∈ ps, isLdcal p = false) → t.regs.calv = s.regs.calv) := by
  induction ps generalizing s with
  | nil => cases h; exact ⟨hr, rfl, id, fun _ => rfl⟩
  | cons p ps ih =>
    obtain ⟨u, hu, h⟩ := Option.bind_eq_some_iff.mp h
    have hrun := (State.take_command hr).mp hu
    have hin : u.inputs = s.inputs := by rw [runPacket_frame hrun]
    obtain ⟨hr', hin', ha', hc'⟩ := ih ((runPacket_rst hrun).trans hr) h
    refine ⟨hr', hin'.trans hin, ha' ∘ runPacket_keeps_armed hrun, fun hp => ?_⟩
    obtain ⟨hp, hps⟩ := List.forall_mem_cons.mp hp
    exact (hc' hps).trans (runPacket_keeps_calv hrun hp)

/-- A reset and its release leave the block with the reset registers (R140, R141). -/
theorem State.takeAll_reset {s t : State} (h : State.takeAll Move.reset.inputs s = some t) :
    t.regs = Regs.reset ∧ t.rst = false ∧ t.inputs = s.inputs := by
  cases h; exact ⟨rfl, rfl, rfl⟩

/-! ### A move keeps the invariant -/

theorem MonitorPhase.watch_of_armed {s : State} (m : MonitorPhase) (t : State) (ha : s.regs.armed = true) :
    m.watch s t = m := by
  simp [MonitorPhase.watch, armedRises, State.armedO, ha]

/-- Watching keeps MONITOR in existence exactly while the block is armed, once the block cannot be disarmed (R27). -/
theorem MonitorPhase.watch_absent_iff {m : MonitorPhase} {s t : State} (hm : m = .absent ↔ s.regs.armed = false)
    (ha : s.regs.armed = true → t.regs.armed = true) : m.watch s t = .absent ↔ t.regs.armed = false := by
  cases hs : s.regs.armed with
  | true => rw [MonitorPhase.watch_of_armed m t hs, hm, hs, ha hs]
  | false =>
    rw [MonitorPhase.watch, hm.mpr hs]
    cases ht : t.regs.armed <;> simp [armedRises, State.armedO, hs, ht]

theorem MonitorPhase.after_cases {c d : MonitorPhase} {m : MonitorMove} (h : c.after m = some d) :
    (c = .sampling ∧ (∃ b, m = .sample b) ∧ d = .comparing) ∨ (c = .comparing ∧ m = .compare ∧ d = .sampling) := by
  cases c <;> cases m <;> cases h
  · exact .inl ⟨rfl, ⟨_, rfl⟩, rfl⟩
  · exact .inr ⟨rfl, rfl, rfl⟩

/-- Until its `INIT` HOST sends threshold configuration only (R142, log entry 13). -/
theorem HostAgent.after_initDone_false {h k : HostAgent} {m : HostMove} (hm : h.after m = some k)
    (hk : k.initDone = false) : h.initDone = false ∧ ∀ p ∈ m.commands, isLdcal p = false := by
  cases m with
  | configurePressure u l => cases hm; exact ⟨hk, List.forall_mem_singleton.mpr rfl⟩
  | configureTemperature u l => cases hm; exact ⟨hk, List.forall_mem_singleton.mpr rfl⟩
  | _ =>
    -- `INIT` sets `initDone` and every other move needs it set, so `hk` excludes them all.
    simp only [HostAgent.after] at hm
    split at hm <;> cases hm
    simp_all

theorem MonitorMove.commands_not_ldcal (m : MonitorMove) : ∀ p ∈ m.commands, isLdcal p = false := by
  cases m <;> exact List.forall_mem_singleton.mpr rfl

theorem Platform.move_keeps_inv {p q : Platform} {m : Move} (hp : PlatformInv p) (h : p.move m = some q) :
    PlatformInv q := by
  obtain ⟨htaken, hreleased, hmonitor, hinit⟩ := hp
  obtain ⟨hblock, ⟨rfl, -, hm⟩ | ⟨k, rfl, hh, hm⟩ | ⟨k, rfl, hh, hm⟩⟩ := Platform.move_cases h
  · obtain ⟨hregs, hr, hin⟩ := State.takeAll_reset hblock
    exact ⟨hin.trans htaken, hr, by simp [hm, hregs], fun _ => by simp [hregs]⟩
  · obtain ⟨hr, hin, ha, hc⟩ := State.takeAll_commands hreleased hblock
    refine ⟨hin.trans htaken, hr, hm ▸ MonitorPhase.watch_absent_iff hmonitor ha, fun hq => ?_⟩
    obtain ⟨hp, hcmd⟩ := HostAgent.after_initDone_false hh hq
    exact (hc hcmd).trans (hinit hp)
  · obtain ⟨hr, hin, ha, hc⟩ := State.takeAll_commands hreleased hblock
    have hpresent : p.monitor ≠ .absent ∧ q.monitor ≠ .absent := by
      obtain ⟨hc, -, hd⟩ | ⟨hc, -, hd⟩ := MonitorPhase.after_cases hm <;> simp [hc, hd]
    have harmed : p.block.regs.armed = true := by simpa [hmonitor] using hpresent.1
    refine ⟨hin.trans htaken, hr, by simp [hpresent.2, ha harmed], fun hq => ?_⟩
    exact (hc k.commands_not_ldcal).trans (hinit (hh ▸ hq))

/-- Only a reset disarms the block (R17, R25). -/
theorem Platform.move_keeps_armed {p q : Platform} {m : Move} (hr : p.block.rst = false) (hm : m ≠ .reset)
    (h : p.move m = some q) (ha : p.block.regs.armed = true) : q.block.regs.armed = true := by
  obtain ⟨hblock, ⟨rfl, -⟩ | ⟨k, rfl, -⟩ | ⟨k, rfl, -⟩⟩ := Platform.move_cases h
  · exact absurd rfl hm
  all_goals
    obtain ⟨-, -, hkeeps, -⟩ := State.takeAll_commands hr hblock
    exact hkeeps ha

/-! ### Along an execution -/

namespace IsExecution

variable {states : Nat → Platform} {moves : Nat → Option Move} (h : IsExecution states moves)
include h

theorem run_movesBefore (n : Nat) : Platform.run (movesBefore moves n) (states 0) = some (states n) := by
  induction n with
  | zero => rfl
  | succ n ih =>
    rw [movesBefore_succ, Platform.run_append, ih]
    cases hn : moves n with
    | none => simp [h.pause hn]
    | some m => simp [h.move hn]

theorem platformInv (h0 : PlatformInv (states 0)) (n : Nat) : PlatformInv (states n) := by
  induction n with
  | zero => exact h0
  | succ n ih =>
    cases hn : moves n with
    | none => exact (h.pause hn).symm ▸ ih
    | some m => exact Platform.move_keeps_inv ih (h.move hn)

end IsExecution

end Machine
end Sys2Proof
end

section
/-! The statement about executions fair to MONITOR: from an armed time on without a reset, its phase waits for its own
next move, which fairness provides, so the phases alternate for ever (R109, R156). -/

namespace Sys2Proof
namespace Machine

open Sys2Proof.Safety

/-- From time `n` on the poll loop runs: the block is armed, no reset comes, and MONITOR is treated fairly. -/
structure PollsFrom (states : Nat → Platform) (moves : Nat → Option Move) (n : Nat) : Prop where
  execution : IsExecution states moves
  inv : ∀ k, PlatformInv (states k)
  fair : MonitorFair states moves
  armed : (states n).block.regs.armed = true
  no_reset : ∀ k, n ≤ k → moves k ≠ some .reset

namespace PollsFrom

variable {states : Nat → Platform} {moves : Nat → Option Move} {n : Nat} (h : PollsFrom states moves n)
include h

theorem succ : PollsFrom states moves (n + 1) := by
  refine ⟨h.execution, h.inv, h.fair, ?_, fun k hk => h.no_reset k (by omega)⟩
  cases hn : moves n with
  | none => exact (h.execution.pause hn).symm ▸ h.armed
  | some m =>
    have hm : m ≠ .reset := fun e => h.no_reset n le_rfl (e ▸ hn)
    exact Platform.move_keeps_armed (h.inv n).released hm (h.execution.move hn) h.armed

theorem mono {k : Nat} (hk : n ≤ k) : PollsFrom states moves k := by
  induction k, hk using Nat.le_induction with
  | base => exact h
  | succ k _ ih => exact ih.succ

theorem monitor_ne_absent : (states n).monitor ≠ .absent := by
  simp [(h.inv n).monitor_armed, h.armed]

/-- At each time MONITOR moves or its phase stays, since HOST's moves cannot restart it while the block is armed. -/
theorem monitor_step :
    (∃ m, moves n = some (.monitor m) ∧ (states n).monitor.after m = some (states (n + 1)).monitor)
    ∨ ((∀ m, moves n ≠ some (.monitor m)) ∧ (states (n + 1)).monitor = (states n).monitor) := by
  obtain ⟨hn, hm⟩ | hmove | ⟨hn, -⟩ | ⟨k, hn, hm⟩ := h.execution.monitor_cases n
  · exact .inr ⟨by simp [hn], hm⟩
  · exact .inl hmove
  · exact absurd hn (h.no_reset n le_rfl)
  · exact .inr ⟨by simp [hn], hm.trans (MonitorPhase.watch_of_armed _ _ h.armed)⟩

/-- MONITOR's next move comes, and it is made in the phase of now: induction on how far off some move of MONITOR is. -/
theorem next_move : ∃ j m, n ≤ j ∧ moves j = some (.monitor m)
    ∧ (states n).monitor.after m = some (states (j + 1)).monitor := by
  obtain ⟨j, hj, hmove⟩ : ∃ j, n ≤ j ∧ ∃ m, moves j = some (.monitor m) := by
    obtain ⟨j, hj, hreset | hmove⟩ := h.fair n h.monitor_ne_absent
    · exact absurd hreset (h.no_reset j hj)
    · exact ⟨j, hj, hmove⟩
  obtain ⟨d, rfl⟩ := Nat.exists_eq_add_of_le hj
  clear hj
  induction d generalizing n with
  | zero =>
    obtain ⟨m, hn, hm⟩ | ⟨hnone, -⟩ := h.monitor_step
    · exact ⟨n, m, le_rfl, hn, hm⟩
    · obtain ⟨m, hn⟩ := hmove
      exact absurd hn (hnone m)
  | succ d ih =>
    obtain ⟨m, hn, hm⟩ | ⟨-, hstay⟩ := h.monitor_step
    · exact ⟨n, m, le_rfl, hn, hm⟩
    · obtain ⟨j, m, hj, hn, hm⟩ := ih h.succ (by rwa [Nat.add_right_comm, Nat.add_assoc])
      exact ⟨j, m, by omega, hn, hstay ▸ hm⟩

theorem sample_of_sampling (hs : (states n).monitor = .sampling) :
    ∃ j b, n ≤ j ∧ moves j = some (.monitor (.sample b)) ∧ (states (j + 1)).monitor = .comparing := by
  obtain ⟨j, m, hj, hmove, hm⟩ := h.next_move
  obtain ⟨-, ⟨b, rfl⟩, hd⟩ | ⟨hc, -⟩ := MonitorPhase.after_cases hm
  · exact ⟨j, b, hj, hmove, hd⟩
  · simp [hs] at hc

theorem compare_of_comparing (hs : (states n).monitor = .comparing) :
    ∃ j, n ≤ j ∧ moves j = some (.monitor .compare) ∧ (states (j + 1)).monitor = .sampling := by
  obtain ⟨j, m, hj, hmove, hm⟩ := h.next_move
  obtain ⟨hc, -⟩ | ⟨-, rfl, hd⟩ := MonitorPhase.after_cases hm
  · simp [hs] at hc
  · exact ⟨j, hj, hmove, hd⟩

theorem sample_and_compare :
    (∃ i b, n ≤ i ∧ moves i = some (.monitor (.sample b))) ∧ ∃ j, n ≤ j ∧ moves j = some (.monitor .compare) := by
  cases hs : (states n).monitor with
  | absent => exact absurd hs h.monitor_ne_absent
  | sampling =>
    obtain ⟨i, b, hi, hsample, hnext⟩ := h.sample_of_sampling hs
    obtain ⟨j, hj, hcompare, -⟩ := (h.mono (by omega)).compare_of_comparing hnext
    exact ⟨⟨i, b, hi, hsample⟩, j, by omega, hcompare⟩
  | comparing =>
    obtain ⟨j, hj, hcompare, hnext⟩ := h.compare_of_comparing hs
    obtain ⟨i, b, hi, hsample, -⟩ := (h.mono (by omega)).sample_of_sampling hnext
    exact ⟨⟨i, b, by omega, hsample⟩, j, hj, hcompare⟩

end PollsFrom

/-- Settles O60: the invariant holds all along, and from every later time the poll loop still runs. -/
theorem fairMonitorPollsWithoutEnd : Obligations.FairMonitorPollsWithoutEnd := by
  intro states moves h
  refine ⟨h.run_movesBefore, fun h0 hfair n harmed hreset k hk => ?_⟩
  have hpolls : PollsFrom states moves n := ⟨h, h.platformInv h0, hfair, harmed, hreset⟩
  exact (hpolls.mono hk).sample_and_compare

end Machine
end Sys2Proof
end

section
/-! The statements about the environment's bus sequences: INIT and READDATA (R143, R146). -/

namespace Sys2Proof
namespace Machine

/-- Three bytes side by side are the bytes of their pattern, most significant first (R33). -/
theorem beBytes_append_three (x y z : Byte) : beBytes 3 (x ++ y ++ z).toNat = [x, y, z] := by
  have hnat : (x ++ y ++ z).toNat = beNat [x, y, z] := by
    rw [append_toNat, append_toNat]
    simp only [beNat, List.length_cons, List.length_nil]
    omega
  rw [hnat]
  exact beBytes_beNat [x, y, z]

/-- Settles O49: the bytes read are the block's own, and LDCAL's operand bytes are those by definition. -/
theorem initLoadsTheBytesRead : Obligations.InitLoadsTheBytesRead :=
  fun block => ⟨blockBytes block, beBytes_length 18 block.toNat, rfl, rfl⟩

/-- Settles O50: the sequence and its count are read off; the packet is SAMPLE's by the byte order of its operands. -/
theorem readDataSamplesTheBytesRead : Obligations.ReadDataSamplesTheBytesRead := by
  intro t2 t1 t0 p2 p1 p0
  refine ⟨rfl, rfl, ?_⟩
  rw [encode, encodeOperands, beBytes_append_three, beBytes_append_three]
  rfl

end Machine
end Sys2Proof
end

section
/-! The statements about packets: the codec is a bijection between the instructions and the packets the decoder accepts
(R45 to R57), and how operands are assembled from their bytes (R57). -/

namespace Sys2Proof

/-! ### Fields and their bytes -/

/-- A field that holds the number of some bytes is written back to those bytes. -/
theorem beBytes_ofNat_beNat {w n : Nat} {bs : List Byte} (hlen : bs.length = n) (hlt : beNat bs < 2 ^ w) :
    beBytes n (BitVec.ofNat w (beNat bs)).toNat = bs := by
  rw [BitVec.toNat_ofNat, Nat.mod_eq_of_lt hlt, beBytes_beNat_of_length hlen]

/-- The bytes of a whole-byte field are in its range. -/
theorem beNat_lt_two_pow {n : Nat} {bs : List Byte} (hlen : bs.length = n) : beNat bs < 2 ^ (8 * n) := by
  rw [pow_mul, ← hlen]
  exact beNat_lt bs

/-- Two operands are written back to the bytes they were cut from. -/
theorem beBytes_take_drop {w v m n : Nat} {bs : List Byte} (hlen : bs.length = m + n) (hw : beNat (bs.take m) < 2 ^ w)
    (hv : 8 * n = v) :
    beBytes m (BitVec.ofNat w (beNat (bs.take m))).toNat ++ beBytes n (BitVec.ofNat v (beNat (bs.drop m))).toNat
      = bs := by
  subst hv
  have htake : (bs.take m).length = m := by rw [List.length_take]; omega
  have hdrop : (bs.drop m).length = n := by rw [List.length_drop]; omega
  rw [beBytes_ofNat_beNat htake hw, beBytes_ofNat_beNat hdrop (beNat_lt_two_pow hdrop), List.take_append_drop]

theorem beNat_take_lt {m n : Nat} {bs : List Byte} (hlen : bs.length = m + n) : beNat (bs.take m) < 2 ^ (8 * m) :=
  beNat_lt_two_pow (by rw [List.length_take]; omega)

theorem beNat_nil : beNat [] = 0 := rfl

/-- R57 joins the bytes of an operand by shifts and ors. -/
theorem beNat_cons_or (b : Byte) (bs : List Byte) : beNat (b :: bs) = b.toNat <<< (8 * bs.length) ||| beNat bs := by
  rw [Machine.shiftLeft_or (beNat_lt_two_pow rfl), pow_mul]
  rfl

theorem toNat_ofNat_beNat {w : Nat} (bs : List Byte) (hw : 8 * bs.length = w) :
    (BitVec.ofNat w (beNat bs)).toNat = beNat bs := by
  subst hw
  rw [BitVec.toNat_ofNat, Nat.mod_eq_of_lt (beNat_lt_two_pow rfl)]

theorem take_beBytes_append (n x : Nat) (bs : List Byte) : (beBytes n x ++ bs).take n = beBytes n x :=
  List.take_left' (beBytes_length n x)

theorem drop_beBytes_append (n x : Nat) (bs : List Byte) : (beBytes n x ++ bs).drop n = bs :=
  List.drop_left' (beBytes_length n x)

/-! ### Decoding an encoded instruction -/

/-- Each operand reads back from its bytes; the fields of DEC and EVCLR that are narrower than a byte are in range. -/
theorem decodeOperands_encodeOperands (i : Instr) : decodeOperands i.opcode (encodeOperands i) = .ok i := by
  cases i with
  | dec w v =>
    have hw : beNat (beBytes 1 w.toNat) < 2 ^ 5 := by rw [beNat_beBytes_of_lt (by omega)]; exact w.isLt
    simp (disch := decide) only [decodeOperands, Instr.opcode, encodeOperands, take_beBytes_append,
      drop_beBytes_append, if_pos hw, ofNat_beNat_beBytes]
  | evclr m =>
    have hm : beNat (beBytes 1 m.toNat) < 2 ^ 4 := by rw [beNat_beBytes_of_lt (by omega)]; exact m.isLt
    simp (disch := decide) only [decodeOperands, Instr.opcode, encodeOperands, if_pos hm, ofNat_beNat_beBytes]
  | ldcal | sample | setthrp | setthrt | cmp | rd =>
    simp (disch := decide) only [decodeOperands, Instr.opcode, encodeOperands, take_beBytes_append,
      drop_beBytes_append, ofNat_beNat_beBytes]

/-- Settles O34: the opcode byte names the operation, the length is right, and the operands read back. -/
theorem decodeOfEncode : Obligations.DecodeOfEncode := fun i =>
  (Machine.decode_code (encodeOperands_length i)).trans (decodeOperands_encodeOperands i)

/-! ### Encoding a decoded instruction -/

/-- Each operand is written back to the bytes it was read from. -/
theorem encodeOperands_decodeOperands {o : Opcode} {args : List Byte} {i : Instr} (hlen : args.length + 1 = o.len)
    (h : decodeOperands o args = .ok i) : encodeOperands i = args := by
  cases o <;> replace hlen := Nat.succ.inj hlen
  case dec =>
    simp only [decodeOperands] at h
    split at h <;> cases h
    exact beBytes_take_drop (n := 3) hlen ‹_› rfl
  case evclr =>
    simp only [decodeOperands] at h
    split at h <;> cases h
    exact beBytes_ofNat_beNat hlen ‹_›
  case ldcal | rd => cases h; exact beBytes_ofNat_beNat hlen (beNat_lt_two_pow hlen)
  case sample => cases h; exact beBytes_take_drop (n := 3) hlen (beNat_take_lt (n := 3) hlen) rfl
  case setthrp | setthrt => cases h; exact beBytes_take_drop (n := 6) hlen (beNat_take_lt (n := 6) hlen) rfl
  case cmp => cases h; exact (List.eq_nil_of_length_eq_zero hlen).symm

/-- What an accepted packet is made of. -/
theorem decode_eq_ok {p : Packet} {i : Instr} (h : decode p = .ok i) :
    ∃ args, p = i.opcode.code :: args ∧ args.length + 1 = i.opcode.len ∧ decodeOperands i.opcode args = .ok i := by
  obtain ⟨args, rfl⟩ := List.head?_eq_some_iff.mp (Machine.decode_head h)
  by_cases hlen : args.length + 1 = i.opcode.len
  · exact ⟨args, rfl, hlen, Machine.decode_code hlen ▸ h⟩
  · rw [Machine.decode_wrongLength hlen] at h; cases h

/-- Settles O35: the opcode byte is the instruction's own, and the operand bytes are written back. -/
theorem encodeOfDecode : Obligations.EncodeOfDecode := by
  intro p i h
  obtain ⟨args, rfl, hlen, hargs⟩ := decode_eq_ok h
  rw [encode, encodeOperands_decodeOperands hlen hargs]

/-! ### Operands byte by byte -/

namespace Machine

/-- The bytes after the opcode of LDCAL are those of the block it reads (R51). -/
theorem calByte_ofNat_beNat {args : List Byte} (hlen : args.length = 18) {k : Nat} (hk : k < 18) :
    calByte (BitVec.ofNat 144 (beNat args)) k = (args.getD k 0).toNat := by
  conv_rhs => rw [← beBytes_beNat_of_length hlen, beBytes_getD_toNat _ hk]
  rw [calByte, toNat_ofNat_beNat args (by omega)]

/-- A 24-bit operand as R57 writes it. -/
theorem toNat_ofNat_three (x y z : Byte) :
    (BitVec.ofNat 24 (beNat [x, y, z])).toNat = (x.toNat <<< 16) ||| (y.toNat <<< 8) ||| z.toNat := by
  rw [toNat_ofNat_beNat (w := 24) _ rfl]
  simp [beNat_cons_or, beNat_nil, Nat.or_assoc]

/-- A 48-bit operand as R57 writes it. -/
theorem toNat_ofNat_six (a b c d e f : Byte) :
    (BitVec.ofNat 48 (beNat [a, b, c, d, e, f])).toNat
      = (a.toNat <<< 40) ||| (b.toNat <<< 32) ||| (c.toNat <<< 24) ||| (d.toNat <<< 16) ||| (e.toNat <<< 8)
        ||| f.toNat := by
  rw [toNat_ofNat_beNat (w := 48) _ rfl]
  simp [beNat_cons_or, beNat_nil, Nat.or_assoc]

/-- Settles O33: each format's equation, the operand being `beNat` of its bytes, which R57 writes with shifts. -/
theorem operandsAreAssembledMostSignificantFirst : Obligations.OperandsAreAssembledMostSignificantFirst := by
  refine ⟨fun b1 v2 v1 v0 hb => ?dec, fun args hlen => ?ldcal, fun t2 t1 t0 p2 p1 p0 => ?sample,
    fun u5 u4 u3 u2 u1 u0 l5 l4 l3 l2 l1 l0 => ?setters, fun m hm => ?evclr, decode_rdPacket⟩
  case dec =>
    refine ⟨_, _, (decode_decPacket b1 v2 v1 v0).trans (if_pos hb), ?_, ?_⟩
    · rw [BitVec.toNat_ofNat, Nat.mod_eq_of_lt hb]
    · simpa [beNat, Nat.add_assoc] using toNat_ofNat_three v2 v1 v0
  case ldcal =>
    exact ⟨_, decode_code (o := .ldcal) (congrArg Nat.succ hlen), fun k => calByte_ofNat_beNat hlen⟩
  case sample => exact ⟨_, _, decode_code (o := .sample) rfl, toNat_ofNat_three t2 t1 t0, toNat_ofNat_three p2 p1 p0⟩
  case setters =>
    exact ⟨_, _, decode_code (o := .setthrp) rfl, decode_code (o := .setthrt) rfl, toNat_ofNat_six u5 u4 u3 u2 u1 u0,
      toNat_ofNat_six l5 l4 l3 l2 l1 l0⟩
  case evclr =>
    refine ⟨_, (decode_evclrPacket m).trans (if_pos hm), ?_⟩
    rw [BitVec.toNat_ofNat, Nat.mod_eq_of_lt hm]

/-- Settles O36: closed packets. -/
theorem writtenPacketsDecode : Obligations.WrittenPacketsDecode := by
  unfold Obligations.WrittenPacketsDecode
  decide

end Machine
end Sys2Proof
end

section
/-! The statements about the machine's invariant (R12, R25, R26, R48, R61): the reset state meets it and every step
keeps it. -/

namespace Sys2Proof
namespace Machine

open Sys2Proof.Safety

/-! ### The readings -/

/-- The floor of an exact value within `B`, as far as it fits, is a reading within `B` (R25, R91). -/
theorem withinBound_of_floor {x : Q3216} {q B : ℚ} (hx : x.toInt = ⌊q * 65536⌋) (hq : |q| ≤ B)
    (hlt : |⌊q * 65536⌋| < 2 ^ 47) : WithinBound x B := by
  obtain ⟨hlow, hhigh⟩ := abs_le.mp hq
  have hle := Int.floor_le (q * 65536)
  have hgt := Int.lt_floor_add_one (q * 65536)
  rw [WithinBound, hx]
  exact ⟨by linarith, by linarith, hlt⟩

theorem withinBound_sampledTmp (p : Params) (c : Coeffs) (uT : Raw24) :
    WithinBound (sampledTmp p c uT) (tBound p.kt) :=
  withinBound_of_floor (sampledTmp_toInt p c uT) (abs_tExact_le p.kt c uT)
    (tempFixed_eq_floor c _ p.kt_pos ▸ abs_tempFixed_lt p c uT)

theorem withinBound_sampledPrs (p : Params) (c : Coeffs) (uT uP : Raw24) :
    WithinBound (sampledPrs p c uT uP) (pBound p.kt p.kp) :=
  withinBound_of_floor (sampledPrs_toInt p c uT uP) (abs_pExact_le p.kt p.kp c uT uP)
    (presFixed_eq_floor c _ _ p.kt_pos p.kp_pos ▸ abs_presFixed_lt p c uT uP)

theorem withinBound_zero {B : ℚ} (hB : 0 ≤ B) : WithinBound 0 B := by
  refine withinBound_of_floor (q := 0) ?_ (by rwa [abs_zero]) ?_ <;> simp

/-! ### The registers -/

/-- The reset values meet the register invariant for every parameter record (R24, R25). -/
theorem regsInv_reset (p : Params) : RegsInv p Regs.reset where
  tmp_bound := withinBound_zero ((abs_nonneg _).trans (abs_tExact_le p.kt Coeffs.zero 0))
  prs_bound := withinBound_zero ((abs_nonneg _).trans (abs_pExact_le p.kt p.kp Coeffs.zero 0 0))
  cal_zero _ := rfl
  readings_zero _ := ⟨rfl, rfl⟩
  events_zero _ := ⟨rfl, rfl⟩

/-- Every operation keeps the register invariant: SAMPLE's readings are bounded, and zero with the zero coefficients of
`CALV = 0`; LDCAL sets `CALV`, the setters `ARMED`; CMP writes event bits while armed only, and EVCLR only clears. -/
theorem exec_keeps_regsInv {i : Instr} {s t : State} (hinv : RegsInv s.params s.regs) (h : exec i s = .next t) :
    RegsInv s.params t.regs := by
  obtain ⟨htmp, hprs, hcal, hreadings, hevents⟩ := hinv
  obtain e | ⟨b, -, -, e⟩ | ⟨uT, uP, -, e⟩ | ⟨u, l, -, e⟩ | ⟨u, l, -, e⟩ | ⟨-, ha, e⟩ | ⟨m, -, e⟩ :=
      exec_regs_cases h <;> rw [e]
  · exact ⟨htmp, hprs, hcal, hreadings, hevents⟩
  · exact ⟨htmp, hprs, nofun, nofun, hevents⟩
  · refine ⟨withinBound_sampledTmp .., withinBound_sampledPrs .., hcal, fun hc => ?_, hevents⟩
    rw [hcal hc]
    exact ⟨sampledTmp_zeroCoeffs .., sampledPrs_zeroCoeffs ..⟩
  · exact ⟨htmp, hprs, hcal, hreadings, nofun⟩
  · exact ⟨htmp, hprs, hcal, hreadings, nofun⟩
  · exact ⟨htmp, hprs, hcal, hreadings, fun hidle => by simp [ha] at hidle⟩
  · refine ⟨htmp, hprs, hcal, hreadings, fun hidle => ?_⟩
    obtain ⟨hcprev, hevf⟩ := hevents hidle
    simp [hcprev, hevf, evfAfterClear]

/-! ### The outputs -/

/-- `EDGE` only where `HIT` is (R102). -/
theorem edgeOf_and_not_hit (hit cprev : BitVec 4) : edgeOf hit cprev &&& ~~~hit = 0 := by
  rw [edgeOf, BitVec.and_comm hit, BitVec.and_assoc, BitVec.and_not_self]
  exact BitVec.and_zero

/-- Every output an operation can give is legal: status and payload length by its form, and only CMP's has pulses
(R48, R61, R102). -/
theorem exec_gives_legalOutput {i : Instr} {s t : State} (h : exec i s = .next t) :
    ∃ o, t.out = s.out ++ [o] ∧ LegalOutput o = true := by
  obtain ⟨-, -, o, ho, hcases⟩ := exec_out_cases h
  refine ⟨o, ho, ?_⟩
  obtain ⟨rfl, -⟩ | ⟨rfl, -⟩ | ⟨hr, hh, he⟩ | ⟨⟨x, hr⟩, hh, he⟩ | ⟨⟨x, hr⟩, hh, he⟩ | ⟨rfl, -⟩ | ⟨-, -, -, he, hr⟩ :=
    hcases
  case inl | inr.inl | inr.inr.inr.inr.inr.inl => decide
  case inr.inr.inr.inr.inr.inr =>
    have hedge : o.edge &&& ~~~o.hit = 0 := he ▸ edgeOf_and_not_hit o.hit s.regs.cprev
    simp [LegalOutput, hr, hedge]
  all_goals simp [LegalOutput, hr, hh, he, patternBytes]

/-- What holds of the outputs given and of the one answer holds of the outputs after it. -/
theorem forall_out_of_answer {P : Output → Prop} {s t : State} {o : Output} (ht : t.out = s.out ++ [o])
    (hout : ∀ x ∈ s.out, P x) (ho : P o) : ∀ x ∈ t.out, P x :=
  ht ▸ List.forall_mem_append.mpr ⟨hout, List.forall_mem_singleton.mpr ho⟩

/-! ### The step -/

theorem heldInReset_holdReset (s : State) : HeldInReset (holdReset s) := by
  intro hr
  rw [holdReset_rst] at hr
  rw [holdReset_asserted hr]
  rfl

/-- Forcing the reset values keeps the invariant, and makes `HeldInReset` true (R26). -/
theorem inv_holdReset {s : State} (hregs : RegsInv s.params s.regs) (hout : ∀ o ∈ s.out, LegalOutput o = true) :
    Inv (holdReset s) := by
  refine ⟨heldInReset_holdReset s, ?_, by simpa using hout⟩
  rw [holdReset_params, holdReset_regs]
  split
  · exact regsInv_reset s.params
  · exact hregs

/-- Settles O43: the reset values, `rst_i` released and no output. -/
theorem invariantAtReset : Obligations.InvariantAtReset :=
  ⟨nofun, regsInv_reset Params.default, nofun⟩

/-- Settles O44: by the ways a step can come to a next state. An operation keeps the registers' part and gives a legal
output, `ILL` is a legal output too, and `holdReset` keeps both. -/
theorem stepKeepsInvariant : Obligations.StepKeepsInvariant := by
  rintro s t ⟨hheld, hregs, hout⟩ h
  have hinv (rest : List Input) : Inv (holdReset (s.setInputs rest)) := inv_holdReset (s := s.setInputs rest) hregs hout
  obtain ⟨-, rfl⟩ | ⟨rest, -, rfl⟩ | ⟨rest, -, rfl⟩ | ⟨_, _, rest, i, u, -, -, hu, rfl⟩ | ⟨_, _, rest, _, -, -, rfl⟩ :=
    step_cases h
  · exact ⟨hheld, hregs, hout⟩
  · exact ⟨fun _ => rfl, regsInv_reset s.params, hout⟩
  · exact ⟨nofun, (hinv rest).regs, (hinv rest).outputs⟩
  · obtain ⟨hparams, -⟩ := exec_out_cases hu
    obtain ⟨o, ho, hlegal⟩ := exec_gives_legalOutput hu
    exact inv_holdReset (hparams ▸ exec_keeps_regsInv (hinv rest).regs hu)
      (forall_out_of_answer ho (hinv rest).outputs hlegal)
  · exact ⟨(hinv rest).held, (hinv rest).regs, forall_out_of_answer rfl (hinv rest).outputs (by decide)⟩

end Machine
end Sys2Proof
end

section
/-! The statements about the numbers beside the machine's steps: the floors against the exact values (R87, R105), the
legal parameter tables (R6), the display (R90), the channels' coefficients (R84, R85) and decimal thresholds (R59). -/

namespace Sys2Proof
namespace Machine

/-! ### A number and its floor in units of 2^-16 -/

theorem sub_floor_div_mem (x : ℚ) :
    0 ≤ x - (⌊x * 65536⌋ : ℚ) / 65536 ∧ x - (⌊x * 65536⌋ : ℚ) / 65536 < 1 / 2 ^ 16 := by
  have hle := Int.floor_le (x * 65536)
  have hlt := Int.lt_floor_add_one (x * 65536)
  constructor <;> linarith

/-- The floor reaches `h` exactly when the number does (R105 (c)). -/
theorem le_floor_units_iff (h : Int) (x : ℚ) : h ≤ ⌊x * 65536⌋ ↔ (h : ℚ) / 65536 ≤ x := by
  rw [Int.le_floor, div_le_iff₀ (by norm_num)]

/-- The floor stays at or below `h` exactly when the number is less than a unit above it (R105 (c)). -/
theorem floor_units_le_iff (h : Int) (x : ℚ) : ⌊x * 65536⌋ ≤ h ↔ x < ((h : ℚ) + 1) / 65536 := by
  rw [← Int.lt_add_one_iff, Int.floor_lt, lt_div_iff₀ (by norm_num)]
  push_cast
  rfl

/-- Settles O10: both integers are floors (R87), and a floor is less than one unit below its number. -/
theorem integerFloorsAreWithinOneUnit : Obligations.IntegerFloorsAreWithinOneUnit := by
  intro kt kp c rawT rawP ht hp
  have hT := tempFixed_eq_floor c rawT ht
  have hP := presFixed_eq_floor c rawT rawP ht hp
  obtain ⟨hT0, hT1⟩ := sub_floor_div_mem (tExact kt c rawT)
  obtain ⟨hP0, hP1⟩ := sub_floor_div_mem (pExact kt kp c rawT rawP)
  exact ⟨hT, hP, hT ▸ hT0, hT ▸ hT1, hP ▸ hP0, hP ▸ hP1⟩

/-- Settles O23: the floor's own two equivalences, for each channel. -/
theorem flooredComparisonsFollowExactValues : Obligations.FlooredComparisonsFollowExactValues := by
  intro kt kp c rawT rawP h ht hp
  rw [tempFixed_eq_floor c rawT ht, presFixed_eq_floor c rawT rawP ht hp]
  exact ⟨le_floor_units_iff .., floor_units_le_iff .., le_floor_units_iff .., floor_units_le_iff ..⟩

/-- Settles O14: the numerators name no other coefficient. -/
theorem channelsDependOnTheirOwnCoefficients : Obligations.ChannelsDependOnTheirOwnCoefficients := by
  refine fun kt kp c d rawT rawP => ⟨fun h0 h1 => ?_, rfl⟩
  rw [tempFixed, tempFixed, tempNum, tempNum, h0, h1]

/-! ### Parameter tables and the display -/

theorem scalePositive_iff (scale : Vector Nat 8) :
    scale.toList.all (fun k => decide (0 < k)) = true ↔ ∀ i : Fin 8, 0 < scale[i] := by
  simp only [List.all_eq_true, decide_eq_true_eq, Vector.mem_toList_iff]
  constructor
  · exact fun h i => h _ (Vector.getElem_mem i.isLt)
  · intro h k hk
    obtain ⟨i, hi, rfl⟩ := Vector.mem_iff_getElem.mp hk
    exact h ⟨i, hi⟩

/-- Settles O12: the check's three parts; its bounds are R91's with the divisions multiplied out, the divisors being
positive. -/
theorem legalConfigurationsAreTheBoundedOnes : Obligations.LegalConfigurationsAreTheBoundedOnes := by
  refine ⟨fun scale => ?_, Params.default.legal⟩
  rw [Config.legalScale, Bool.and_eq_true, Bool.and_eq_true, scalePositive_iff, and_assoc]
  refine and_congr_right fun hpos => ?_
  exact and_congr (temperatureBoundOk_iff (hpos 0)) (pressureBoundOk_iff (hpos 0) (hpos 1))

/-- Settles O16: the integer form is `rnd10` (R90); a tie makes `5 x` an odd multiple of 16384, so `x` is one. -/
theorem displayRoundsTheStoredValue : Obligations.DisplayRoundsTheStoredValue := by
  refine ⟨dispTenths_eq_rnd10, fun x => ⟨fun h => ⟨x / 32768, by omega⟩, ?_⟩, by decide, by decide⟩
  rintro ⟨k, rfl⟩
  omega

/-- Settles O54: the integer division is the floor, and inside 48 bits the pattern reads back as the number. -/
theorem decimalThresholdsAreFloored : Obligations.DecimalThresholdsAreFloored := by
  intro num den _ x
  have hx : num * 65536 / den = x := by
    rw [ediv_eq_floor]
    push_cast
    rw [mul_div_right_comm]
  rw [thresholdPattern]
  simp only [hx]
  exact ⟨fun h => ⟨_, if_pos h, toInt_tc (by decide) h.1 h.2⟩, fun h => if_neg h⟩

end Machine
end Sys2Proof
end

section
/-! The statements about single operations: DEC and RD (R38, R69, R113), the register names of the text form (R59), the
conditions (R105, R108) and the order of events (R127). -/

namespace Sys2Proof
namespace Machine

/-! ### DEC and RD -/

/-- Settles O5: whether the operands are legal, and the decoded value, are the operands' alone. -/
theorem decIsIndependentOfState : Obligations.DecIsIndependentOfState := by
  intro w v
  cases hl : decOperandsLegal w v with
  | true => exact ⟨_, fun s => execDec_legal s hl⟩
  | false => exact ⟨_, fun s => execDec_illegal s hl⟩

/-- Settles O28: a check of the 256 numbers. -/
theorem readableNumbersAreTheListedOnes : Obligations.ReadableNumbersAreTheListedOnes := by
  unfold Obligations.ReadableNumbersAreTheListedOnes
  decide

/-- RD's output is a function of the parameters and the registers, which it leaves (R38, R114). -/
theorem exec_rd (n : BitVec 8) (p : Params) (r : Regs) : ∃ o : Output, ∀ s : State, s.params = p → s.regs = r →
    exec (.rd n) s = .next (s.emit o) := by
  cases hr : regOf n with
  | none => exact ⟨_, fun s _ _ => execRd_none s hr⟩
  | some reg =>
    refine ⟨{ rsp := Status.ok.code :: patternBytes 6 (readReg p r reg), hit := 0, edge := 0 }, ?_⟩
    rintro s rfl rfl
    exact execRd_some s hr

/-- Settles O30: the first RD leaves what the second one reads. -/
theorem readsHaveNoSideEffect : Obligations.ReadsHaveNoSideEffect := by
  intro s t u n ht hu
  obtain ⟨o, ho⟩ := exec_rd n s.params s.regs
  cases (ho s rfl rfl).symm.trans ht
  cases (ho (s.emit o) rfl rfl).symm.trans hu
  exact ⟨rfl, o, rfl, rfl⟩

/-- Settles O53: closed facts about the table of names. -/
theorem registerNamesAreListed : Obligations.RegisterNamesAreListed := by
  unfold Obligations.RegisterNamesAreListed
  refine ⟨by decide, rfl, by decide, by decide, by decide⟩

/-! ### Conditions and events -/

/-- Settles O22: each bit is one comparison (R100), of the reading with the threshold that `PARITY` chooses. -/
theorem conditionsAreIndependent : Obligations.ConditionsAreIndependent := by
  refine ⟨fun p r q => ?_, fun p r => ?_, fun p r => ?_⟩
  · simp only [condBits_bit0, condBits_bit1, condBits_bit2, condBits_bit3]
    exact ⟨fun hx hy => by rw [hx, hy], fun hx hy => by rw [hx, hy], fun hp hx hy => by simp [hp, hx, hy],
      fun hp hx hy => by simp [hp, hx, hy], fun hp hx hy => by simp [hp, hx, hy], fun hp hx hy => by simp [hp, hx, hy]⟩
  · simp only [condBits_bit0, condBits_bit1, decide_eq_false_iff_not, not_le]
    exact and_comm
  · simp only [condBits_bit2, condBits_bit3, decide_eq_false_iff_not, not_le]
    exact and_comm

/-- Settles O25: the setters arm, so the next CMP stores the conditions of the registers they left. -/
theorem newThresholdsCountAtTheNextCmp : Obligations.NewThresholdsCountAtTheNextCmp := by
  intro s upper lower
  constructor
  · exact ⟨_, _, rfl, exec_cmp_armed rfl, condBits_bit0 .., condBits_bit1 .., condBits_bit2 .., condBits_bit3 ..⟩
  · exact ⟨_, _, rfl, exec_cmp_armed rfl, condBits_bit0 .., condBits_bit1 .., condBits_bit2 .., condBits_bit3 ..⟩

/-- Settles O52: the raises are a filter of the fixed order by the bits. -/
theorem eventsAreRaisedInOrder : Obligations.EventsAreRaisedInOrder := by
  have hall (e : Event) : e ∈ Event.inOrder := by cases e <;> decide
  have hsorted : Event.inOrder.Pairwise (fun a b => a.bit < b.bit) := by decide
  refine fun pulses => ⟨fun e => ?_, hsorted.filter _⟩
  rw [raisedEvents, List.mem_filter]
  exact and_iff_right (hall e)

end Machine
end Sys2Proof
end

section
/-! The statements about one step: it always completes (R132), it runs the decoded instruction (R39, R47) whoever sent
it (R23), and what it may change and pulse (R25, R36, R101). -/

namespace Sys2Proof
namespace Machine

open Sys2Proof.Safety

/-! ### The step and its instruction -/

theorem step_idle {s : State} (h : s.inputs = []) : step s = .next s := by
  rw [step, h]
  rfl

/-- Settles O38: one equation of the step per input, and every packet has a next state. -/
theorem everyStepCompletes : Obligations.EveryStepCompletes := by
  intro s
  cases hin : s.inputs with
  | nil => exact ⟨_, step_idle hin⟩
  | cons x rest =>
    cases x with
    | reset => exact ⟨_, step_reset hin⟩
    | release => exact ⟨_, step_release hin⟩
    | command who p =>
      obtain ⟨u, -, hstep⟩ := step_command_run hin
      exact ⟨_, hstep⟩

/-- Settles O39: the step's equation does not mention the sender. -/
theorem requestersAreIndistinguishable : Obligations.RequestersAreIndistinguishable := fun s a b p rest =>
  (step_command (s := { s with inputs := .command a p :: rest }) rfl).trans
    (step_command (s := { s with inputs := .command b p :: rest }) rfl).symm

theorem holdReset_eq (s : State) : holdReset s = { s with regs := if s.rst then Regs.reset else s.regs } := by
  unfold holdReset
  split <;> rfl

/-- A packet that does not decode is answered `ILL` in the state `rst_i` allows (R26, R47). -/
theorem acceptPacket_error {p : Packet} {e : DecodeError} (s : State) (hd : decode p = .error e) :
    acceptPacket p s = .next (respond .ill [] (holdReset s)) := by
  rw [acceptPacket, runPacket_error _ hd]
  exact congrArg _ (holdReset_of_held (s := respond .ill [] (holdReset s)) (heldInReset_holdReset s))

/-- Settles O37: a frame is just run while `rst_i` is released, and run in and left in the reset state while it is
asserted. -/
theorem stepRunsTheDecodedInstruction : Obligations.StepRunsTheDecodedInstruction := by
  refine ⟨fun s who p rest i hr hin hd => ?_, fun s who p rest i hr hin hd => ?_, fun s who p rest e hin hd => ?_,
    fun s => step_idle⟩
  · rw [step_command hin, acceptPacket_released (s := s.setInputs rest) p hr, runPacket_ok _ hd]
    rfl
  · obtain ⟨t, ht⟩ := exec_total i ((s.setInputs rest).setRegs Regs.reset)
    refine ⟨t, ht, (step_command hin).trans ?_⟩
    exact (acceptPacket_asserted (s := s.setInputs rest) hr).mpr ⟨t, (runPacket_ok _ hd).trans ht, rfl⟩
  · rw [step_command hin, acceptPacket_error _ hd, holdReset_eq]
    rfl

/-! ### What a step on a packet can write -/

/-- In a held state a step on a packet leaves the registers, or writes what its instruction does; and then the packet is
that instruction's own (R26, R47). -/
theorem step_command_regs {s t : State} {who : Requester} {p : Packet} {rest : List Input} (hs : HeldInReset s)
    (hin : s.inputs = .command who p :: rest) (h : step s = .next t) :
    t.regs = s.regs ∨ ∃ i u, p = encode i ∧ exec i (s.setInputs rest) = .next u ∧ t.regs = u.regs := by
  have hheld : holdReset (s.setInputs rest) = s.setInputs rest := holdReset_of_held hs
  obtain ⟨u, hu, hstep⟩ := step_command_run hin
  cases hstep.symm.trans h
  rw [hheld] at hu
  have hurst : u.rst = s.rst := runPacket_rst (s := s.setInputs rest) hu
  cases hr : s.rst with
  | true => exact .inl (by rw [holdReset_regs, hurst, hr, if_pos rfl, hs hr])
  | false =>
    rw [holdReset_released (hurst.trans hr)]
    cases hd : decode p with
    | ok i => exact .inr ⟨i, u, (encodeOfDecode p i hd).symm, runPacket_ok _ hd ▸ hu, rfl⟩
    | error e =>
      rw [runPacket_error _ hd] at hu
      exact .inl (by rw [raiseIll_next hu]; rfl)

/-- Settles O40: nothing is written, or one operation's write, and the packet is that operation's. -/
theorem registersChangeOnlyByTheirOperations : Obligations.RegistersChangeOnlyByTheirOperations := by
  intro s t who p rest hs hin h
  obtain e | ⟨i, u, rfl, hu, e⟩ := step_command_regs hs hin h
  · simp [e]
  · obtain e' | ⟨b, rfl, -, e'⟩ | ⟨uT, uP, rfl, e'⟩ | ⟨v, l, rfl, e'⟩ | ⟨v, l, rfl, e'⟩ | ⟨rfl, -, e'⟩ | ⟨m, rfl, e'⟩ :=
      exec_regs_cases hu <;> rw [e, e']
    · simp
    · have hown : ∃ b', encode (.ldcal b) = encode (.ldcal b') := ⟨b, rfl⟩
      simp [hown]
    · have hown : ∃ uT' uP', encode (.sample uT uP) = encode (.sample uT' uP') := ⟨uT, uP, rfl⟩
      simp [hown]
    · have hown : ∃ v' l', encode (.setthrp v l) = encode (.setthrp v' l') := ⟨v, l, rfl⟩
      simp [hown]
    · have hown : ∃ v' l', encode (.setthrt v l) = encode (.setthrt v' l') := ⟨v, l, rfl⟩
      simp [hown]
    · simp
    · have hown : ∃ m', encode (.evclr m) = encode (.evclr m') := ⟨m, rfl⟩
      simp [hown]

/-- Once `CALV` is set no operation writes it or a coefficient (R12, R25). -/
theorem exec_keeps_calibration {i : Instr} {s t : State} (hc : s.regs.calv = true) (h : exec i s = .next t) :
    t.regs.calv = true ∧ t.regs.cal = s.regs.cal := by
  obtain e | ⟨_, _, hc', _⟩ | ⟨_, _, _, e⟩ | ⟨_, _, _, e⟩ | ⟨_, _, _, e⟩ | ⟨_, _, e⟩ | ⟨_, _, e⟩ := exec_regs_cases h
  case inr.inl => simp [hc] at hc'
  all_goals simp [e, hc]

/-- Settles O42: each operation keeps the latches, and a step leaves the registers or does what an operation does. -/
theorem latchesHoldUntilReset : Obligations.LatchesHoldUntilReset := by
  intro s t who p rest hs hin h
  obtain e | ⟨i, u, -, hu, e⟩ := step_command_regs hs hin h
  · rw [e]
    exact ⟨id, fun hc => ⟨hc, rfl⟩⟩
  · rw [e]
    exact ⟨fun ha => exec_keeps_armed (s := s.setInputs rest) ha hu,
      fun hc => exec_keeps_calibration (s := s.setInputs rest) hc hu⟩

/-! ### What a step on a packet can pulse -/

/-- The reset state is not armed (R24), so `ARMED` found set was set. -/
theorem armed_of_holdReset {s : State} (h : (holdReset s).regs.armed = true) : s.regs.armed = true := by
  rw [holdReset_regs] at h
  split at h
  · cases h
  · exact h

/-- A pulse is an armed CMP's (R101, R124). -/
theorem runPacket_pulse {p : Packet} {s t : State} {o : Output} (h : runPacket p s = .next t)
    (ho : t.out = s.out ++ [o]) (hpulse : o.hit ≠ 0 ∨ o.edge ≠ 0) : p = encode .cmp ∧ s.regs.armed = true := by
  cases hd : decode p with
  | ok i =>
    obtain ⟨-, -, x, hx, hcases⟩ := exec_out_cases (runPacket_ok s hd ▸ h)
    obtain rfl : x = o := by simpa using hx.symm.trans ho
    obtain ⟨rfl, -⟩ | ⟨rfl, -⟩ | ⟨-, hq⟩ | ⟨-, hq⟩ | ⟨-, hq⟩ | ⟨rfl, -⟩ | ⟨rfl, ha, -⟩ := hcases
    · simp at hpulse
    · simp at hpulse
    · simp [hq] at hpulse
    · simp [hq] at hpulse
    · simp [hq] at hpulse
    · simp at hpulse
    · exact ⟨decode_eq_cmp hd, ha⟩
  | error e =>
    rw [runPacket_error s hd] at h
    obtain rfl : { rsp := [Status.ill.code], hit := 0, edge := 0 } = o := by
      rw [raiseIll_next h] at ho
      simpa using ho
    simp at hpulse

/-- Settles O41: the step runs the packet in the state `rst_i` allows, which is armed only if the block was. -/
theorem onlyArmedCmpPulses : Obligations.OnlyArmedCmpPulses := by
  intro s t who p rest o hin h ho hpulse
  obtain ⟨u, hu, hstep⟩ := step_command_run hin
  cases hstep.symm.trans h
  obtain ⟨hp, ha⟩ := runPacket_pulse hu (by simpa using ho) hpulse
  exact ⟨hp, armed_of_holdReset (s := s.setInputs rest) ha⟩

end Machine
end Sys2Proof
end

section
/-! The statements about runs of the block: every command is answered (R39, R45), the readings are one sample's (R37),
`armed_o` rises once (R42), and each requester's order is kept (R40). -/

namespace Sys2Proof
namespace Machine

open Sys2Proof.Safety

/-! ### Runs -/

/-- What every step keeps holds after any number of steps. -/
theorem run_keeps {P : State → Prop} (hstep : ∀ s t, P s → step s = .next t → P t) {k : Nat} {s t : State} (hs : P s)
    (hr : Sys2Proof.core.run k s = .next t) : P t := by
  induction k generalizing s with
  | zero => cases hr; exact hs
  | succ k ih =>
    obtain ⟨u, hu, hr⟩ := run_succ.mp hr
    exact ih (hstep s u hs hu) hr

theorem coreRun_add (M : Host.Core) (k m : Nat) (s t : M.State) :
    M.run (k + m) s = .next t ↔ ∃ u, M.run k s = .next u ∧ M.run m u = .next t := by
  induction k generalizing s with
  | zero => simp [Host.Core.run]
  | succ k ih =>
    rw [Nat.add_right_comm]
    simp only [coreRun_succ, ih]
    constructor
    · rintro ⟨v, hv, u, hu, ht⟩
      exact ⟨u, ⟨v, hv, hu⟩, ht⟩
    · rintro ⟨u, ⟨v, hv, hu⟩, ht⟩
      exact ⟨v, hv, u, hu, ht⟩

/-- A run is a run of its first steps followed by a run of the others. -/
theorem run_add {k m : Nat} {s t : State} : Sys2Proof.core.run (k + m) s = .next t
    ↔ ∃ u : State, Sys2Proof.core.run k s = .next u ∧ Sys2Proof.core.run m u = .next t :=
  coreRun_add Sys2Proof.core k m s t

/-- A step leaves no input that was not waiting before it. -/
theorem step_inputs_subset {s t : State} (h : step s = .next t) : t.inputs ⊆ s.inputs := by
  cases hin : s.inputs with
  | nil =>
    cases (step_idle hin).symm.trans h
    rw [hin]
    exact List.Subset.refl _
  | cons x rest =>
    rw [step_inputs hin h]
    exact List.subset_cons_self x rest

/-! ### Every command is answered -/

/-- How many frames the two requesters have in a list of inputs. -/
def frameCount (xs : List Input) : Nat := (framesOf .host xs).length + (framesOf .monitor xs).length

theorem frameCount_command (who : Requester) (p : Packet) (rest : List Input) :
    frameCount (.command who p :: rest) = frameCount rest + 1 := by
  cases who <;> simp [frameCount, framesOf] <;> omega

/-- A step takes the input that waits, and gives one output if it is a command and none else. -/
theorem step_answers {s : State} {x : Input} {rest : List Input} (hin : s.inputs = x :: rest) :
    ∃ t given, step s = .next t ∧ t.inputs = rest ∧ t.params = s.params ∧ t.out = s.out ++ given
      ∧ frameCount (x :: rest) = given.length + frameCount rest := by
  cases x with
  | reset => exact ⟨_, [], step_reset hin, rfl, rfl, (List.append_nil _).symm, (Nat.zero_add _).symm⟩
  | release => exact ⟨_, [], step_release hin, rfl, rfl, (List.append_nil _).symm, (Nat.zero_add _).symm⟩
  | command who p =>
    obtain ⟨t, st, payload, hit, edge, hstep, hrest, hparams, hout, -⟩ := everyPacketGetsOneResponse s who p rest hin
    exact ⟨t, _, hstep, hrest, hparams, hout, (frameCount_command who p rest).trans (Nat.add_comm _ 1)⟩

/-- Settles O45: one step per input. -/
theorem runAnswersEveryCommand : Obligations.RunAnswersEveryCommand := by
  intro s
  induction hin : s.inputs generalizing s with
  | nil => exact ⟨s, rfl, hin, rfl, [], (List.append_nil _).symm, rfl⟩
  | cons x rest ih =>
    obtain ⟨u, given, hu, hrest, hparams, hout, hcount⟩ := step_answers hin
    obtain ⟨t, ht, hnil, hparams', given', hout', hcount'⟩ := ih u hrest
    refine ⟨t, run_succ.mpr ⟨u, hu, ht⟩, hnil, hparams'.trans hparams, given ++ given', ?_, ?_⟩
    · rw [hout', hout, List.append_assoc]
    · rw [List.length_append, hcount']
      exact hcount.symm

/-! ### The readings -/

/-- What a run from `s` can have reached, as far as the readings go: the inputs are among those of `s`, and coefficients
and readings come from where the statement lets them come. -/
structure Traced (s t : State) : Prop where
  params : t.params = s.params
  inputs : t.inputs ⊆ s.inputs
  cal : LoadableCoeffs s t.regs.cal
  readings : PairedReadings s t.regs.tmp t.regs.prs

namespace Traced

variable {s t : State}

theorem refl (s : State) : Traced s s := ⟨rfl, List.Subset.refl _, .inl rfl, .inl ⟨rfl, rfl⟩⟩

theorem after_holdReset (h : Traced s t) : Traced s (holdReset t) := by
  rw [holdReset_eq]
  refine ⟨h.params, h.inputs, ?_, ?_⟩ <;> dsimp only <;> split
  · exact .inr (.inl rfl)
  · exact h.cal
  · exact .inr (.inl ⟨rfl, rfl⟩)
  · exact h.readings

/-- LDCAL and SAMPLE are the only writers, and their packets are among the inputs. -/
theorem after_exec {i : Instr} {u : State} {who : Requester} (h : Traced s t)
    (hi : Input.command who (encode i) ∈ s.inputs) (hu : exec i t = .next u) : Traced s u := by
  obtain ⟨hparams, hinputs, hcal, hreadings⟩ := h
  obtain ⟨hp, hin, -⟩ := exec_out_cases hu
  have hparams' := hp.trans hparams
  have hinputs' : u.inputs ⊆ s.inputs := hin ▸ hinputs
  obtain e | ⟨b, rfl, -, e⟩ | ⟨uT, uP, rfl, e⟩ | ⟨_, _, -, e⟩ | ⟨_, _, -, e⟩ | ⟨-, -, e⟩ | ⟨_, -, e⟩ :=
    exec_regs_cases hu
  case inr.inl => exact ⟨hparams', hinputs', e ▸ .inr (.inr ⟨who, b, hi, rfl⟩), e ▸ hreadings⟩
  case inr.inr.inl =>
    refine ⟨hparams', hinputs', e ▸ hcal, e ▸ .inr (.inr ⟨who, uT, uP, t.regs.cal, hi, hcal, ?_⟩)⟩
    rw [hparams]
    exact ⟨rfl, rfl⟩
  all_goals exact ⟨hparams', hinputs', e ▸ hcal, e ▸ hreadings⟩

theorem after_step {u : State} (h : Traced s t) (hu : step t = .next u) : Traced s u := by
  have htail {x : Input} {rest : List Input} (hin : t.inputs = x :: rest) :
      x ∈ s.inputs ∧ Traced s (t.setInputs rest) :=
    have hsub := List.cons_subset.mp (hin ▸ h.inputs)
    ⟨hsub.1, h.params, hsub.2, h.cal, h.readings⟩
  obtain ⟨-, rfl⟩ | ⟨rest, hin, rfl⟩ | ⟨rest, hin, rfl⟩ | ⟨who, p, rest, i, v, hin, hd, hv, rfl⟩
    | ⟨_, _, rest, _, hin, -, rfl⟩ := step_cases hu
  · exact h
  · obtain ⟨-, hp, hi, -, -⟩ := htail hin
    exact ⟨hp, hi, .inr (.inl rfl), .inr (.inl ⟨rfl, rfl⟩)⟩
  · obtain ⟨hp, hi, hc, hr⟩ := (htail hin).2.after_holdReset
    exact ⟨hp, hi, hc, hr⟩
  · obtain ⟨hmem, hrest⟩ := htail hin
    rw [← encodeOfDecode p i hd] at hmem
    exact (hrest.after_holdReset.after_exec hmem hv).after_holdReset
  · obtain ⟨hp, hi, hc, hr⟩ := (htail hin).2.after_holdReset
    exact ⟨hp, hi, hc, hr⟩

end Traced

/-- Settles O46: every step keeps `Traced`, which starts at the state itself. -/
theorem readingsAreNeverTorn : Obligations.ReadingsAreNeverTorn := by
  intro k s t hr
  have htraced : Traced s t := run_keeps (fun _ _ => Traced.after_step) (Traced.refl s) hr
  exact htraced.readings

/-! ### Arming -/

theorem armedRises_iff {s t : State} : armedRises s t = true ↔ s.regs.armed = false ∧ t.regs.armed = true := by
  simp [armedRises, State.armedO]

/-- An armed block with no reset to come. -/
structure StaysArmed (s : State) : Prop where
  released : s.rst = false
  armed : s.regs.armed = true
  no_reset : Input.reset ∉ s.inputs

theorem StaysArmed.step {s t : State} (h : StaysArmed s) (hs : step s = .next t) : StaysArmed t := by
  obtain ⟨hrst, harmed, hreset⟩ := h
  have hreset' : Input.reset ∉ t.inputs := fun hm => hreset (step_inputs_subset hs hm)
  cases hin : s.inputs with
  | nil => cases (step_idle hin).symm.trans hs; exact ⟨hrst, harmed, hreset⟩
  | cons x rest =>
    cases x with
    | reset => exact absurd (hin ▸ List.mem_cons_self) hreset
    | release =>
      cases (step_release hin).symm.trans hs
      exact ⟨rfl, by simpa [hrst] using harmed, hreset'⟩
    | command who p =>
      rw [step_command hin, acceptPacket_released (s := s.setInputs rest) p hrst] at hs
      exact ⟨(runPacket_rst hs).trans hrst, runPacket_keeps_armed (s := s.setInputs rest) hs harmed, hreset'⟩

/-- A step with an input waiting leaves a state that is the reset state while `rst_i` is asserted (R26). -/
theorem step_heldInReset {s t : State} (h : step s = .next t) : t = s ∨ HeldInReset t := by
  obtain ⟨-, rfl⟩ | ⟨_, -, rfl⟩ | ⟨_, -, rfl⟩ | ⟨_, _, _, _, u, -, -, -, rfl⟩ | ⟨_, _, rest, _, -, -, rfl⟩ :=
    step_cases h
  · exact .inl rfl
  · exact .inr fun _ => rfl
  · exact .inr nofun
  · exact .inr (heldInReset_holdReset u)
  · exact .inr (heldInReset_holdReset (s.setInputs rest))

/-- After a rise of `armed_o` with no reset to come the block stays armed, since an armed block is not held in reset. -/
theorem staysArmed_of_rises {a b : State} (hreset : Input.reset ∉ a.inputs) (h : step a = .next b)
    (hrise : armedRises a b = true) : StaysArmed b := by
  obtain ⟨ha, hb⟩ := armedRises_iff.mp hrise
  refine ⟨?_, hb, fun hm => hreset (step_inputs_subset h hm)⟩
  obtain rfl | hheld := step_heldInReset h
  · simp [ha] at hb
  · rw [← Bool.not_eq_true]
    intro hr
    simp [hheld hr] at hb

/-- Settles O47: after the first rise the block is armed at every later step, so nothing rises again. -/
theorem armedRisesAtMostOnce : Obligations.ArmedRisesAtMostOnce := by
  rintro k m s a b c d hreset hkm ha hb hc hd ⟨hrise, hrise'⟩
  obtain ⟨n, rfl⟩ := Nat.exists_eq_add_of_lt hkm
  have hreset' : Input.reset ∉ a.inputs :=
    run_keeps (P := fun t => Input.reset ∉ t.inputs) (fun _ _ hs h hm => hs (step_inputs_subset h hm)) hreset ha
  rw [Nat.add_assoc, run_add] at hc
  obtain ⟨a', ha', hc⟩ := hc
  cases ha.symm.trans ha'
  obtain ⟨b', hb', hc⟩ := run_succ.mp hc
  cases hb.symm.trans hb'
  have hc' : StaysArmed c := run_keeps (fun _ _ => StaysArmed.step) (staysArmed_of_rises hreset' hb hrise) hc
  simp [armedRises_iff, hc'.armed] at hrise'

/-! ### The requesters' orders -/

theorem framesOf_commands (who sender : Requester) (packets : List Packet) :
    framesOf who (packets.map (Input.command sender)) = if sender = who then packets else [] := by
  induction packets with
  | nil => simp [framesOf]
  | cons p packets ih =>
    rw [List.map_cons, framesOf, ih]
    split <;> rfl

/-- Settles O48: delivery appends at the end, and a step takes the first input. -/
theorem mergesKeepEachRequestersOrder : Obligations.MergesKeepEachRequestersOrder := by
  constructor
  · rintro s _ _ packets ⟨rfl, rfl⟩
    constructor <;> constructor <;> simp [State.deliver, framesOf_append, framesOf_commands]
  · rintro s t _ _ p rest ⟨rfl, rfl⟩ h
    constructor <;> intro hin
    · refine ⟨framesOf .host rest, ?_, ?_⟩
      · rw [hin, framesOf, if_pos rfl]
      · rw [step_inputs hin h, hin]
        exact ⟨rfl, rfl⟩
    · refine ⟨framesOf .monitor rest, ?_, ?_⟩
      · rw [hin, framesOf, if_pos rfl]
      · rw [step_inputs hin h, hin]
        exact ⟨rfl, rfl⟩

end Machine
end Sys2Proof
end

section
/-! SUPPORT. The moves of the agents as instructions: each sends at most one, and the block takes it by running it in
the state `rst_i` allows (R131, R132). -/

namespace Sys2Proof

theorem encode_injective {i j : Instr} (h : encode i = encode j) : i = j := by
  have hdecode : (.ok i : Except DecodeError Instr) = .ok j := by rw [← decodeOfEncode i, h, decodeOfEncode j]
  exact Except.ok.inj hdecode

namespace Machine

open Sys2Proof.Safety

/-! ### The instruction of a move -/

/-- The SAMPLE of the bytes one READDATA reads (R146). -/
def RawBytes.sampleInstr (b : RawBytes) : Instr := .sample (b.t2 ++ b.t1 ++ b.t0) (b.p2 ++ b.p1 ++ b.p0)

theorem encode_sampleInstr (b : RawBytes) :
    encode b.sampleInstr = [Opcode.sample.code, b.t2, b.t1, b.t0, b.p2, b.p1, b.p0] :=
  (readDataSamplesTheBytesRead b.t2 b.t1 b.t0 b.p2 b.p1 b.p0).2.2.symm

/-- The command a move of HOST sends, if it sends one (R60, R131). -/
def HostMove.instr : HostMove → Option Instr
  | .init block => block.map .ldcal
  | .getterSample _ b => some b.sampleInstr
  | .getterRead g => some (.rd g.register)
  | .configurePressure u l => some (.setthrp u l)
  | .configureTemperature u l => some (.setthrt u l)
  | .rd n => some (.rd n)
  | .dec w v => some (.dec w v)
  | .evclr m => some (.evclr m)

theorem HostMove.commands_eq (m : HostMove) : m.commands = m.instr.toList.map encode := by
  cases m with
  | init block => cases block <;> rfl
  | getterSample g b => exact congrArg ([·]) (encode_sampleInstr b).symm
  | _ => rfl

/-- The command of a move of MONITOR (R109, R131). -/
def MonitorMove.instr : MonitorMove → Instr
  | .sample b => b.sampleInstr
  | .compare => .cmp

theorem MonitorMove.commands_eq (m : MonitorMove) : m.commands = [encode m.instr] := by
  cases m with
  | sample b => exact congrArg ([·]) (encode_sampleInstr b).symm
  | compare => rfl

/-! ### The block takes what is sent -/

theorem State.take_encode {who : Requester} {i : Instr} {s t : State} :
    s.take (.command who (encode i)) = some t ↔ ∃ u, exec i (holdReset s) = .next u ∧ t = holdReset u := by
  rw [State.take_eq_some, step_command rfl, acceptPacket, thenHold_next, runPacket_ok _ (decodeOfEncode i)]
  rfl

/-- A move of HOST leaves the block as it is, or runs its instruction. -/
theorem HostMove.takeAll_cases {m : HostMove} {s t : State} (h : State.takeAll (Move.host m).inputs s = some t) :
    (m.instr = none ∧ t = s) ∨ ∃ i u, m.instr = some i ∧ exec i (holdReset s) = .next u ∧ t = holdReset u := by
  rw [Move.inputs, HostMove.commands_eq] at h
  cases hi : m.instr with
  | none => rw [hi] at h; cases h; exact .inl ⟨rfl, rfl⟩
  | some i =>
    rw [hi] at h
    obtain ⟨u, hu, ht⟩ := State.take_encode.mp ((State.takeAll_one _ s).symm.trans h)
    exact .inr ⟨i, u, rfl, hu, ht⟩

/-- A move of MONITOR runs its instruction. -/
theorem MonitorMove.takeAll_iff {m : MonitorMove} {s t : State} :
    State.takeAll (Move.monitor m).inputs s = some t ↔ ∃ u, exec m.instr (holdReset s) = .next u ∧ t = holdReset u := by
  rw [Move.inputs, MonitorMove.commands_eq, List.map_singleton, State.takeAll_one, State.take_encode]

/-- The block takes any inputs (R132). -/
theorem State.takeAll_total (xs : List Input) (s : State) : ∃ t, State.takeAll xs s = some t := by
  induction xs generalizing s with
  | nil => exact ⟨s, rfl⟩
  | cons x xs ih =>
    obtain ⟨u, hu⟩ := everyStepCompletes (s.setInputs (x :: s.inputs))
    obtain ⟨t, ht⟩ := ih u
    exact ⟨t, by rw [State.takeAll_cons, State.take_eq_some.mpr hu]; exact ht⟩

theorem State.takeAll_inputs {xs : List Input} {s t : State} (h : State.takeAll xs s = some t) :
    t.inputs = s.inputs := by
  induction xs generalizing s with
  | nil => cases h; rfl
  | cons x xs ih =>
    obtain ⟨u, hu, h⟩ := Option.bind_eq_some_iff.mp h
    exact (ih h).trans (step_inputs rfl (State.take_eq_some.mp hu))

/-- Taking inputs one by one is running them from the list (R39). -/
theorem run_takeAll {xs : List Input} {s t : State} (ys : List Input) (h : State.takeAll xs s = some t) :
    Sys2Proof.core.run xs.length (s.setInputs (xs ++ ys)) = .next (t.setInputs ys) := by
  induction xs generalizing s with
  | nil => cases h; rfl
  | cons x xs ih =>
    obtain ⟨u, hu, h⟩ := Option.bind_eq_some_iff.mp h
    exact run_succ.mpr ⟨_, step_setInputs (xs ++ ys) (State.take_eq_some.mp hu), ih h⟩

/-! ### Runs of the platform -/

/-- What each of the moves keeps holds after the run. -/
theorem Platform.run_keeps {P : Platform → Prop} {ms : List Move} {p q : Platform}
    (hmove : ∀ m ∈ ms, ∀ p q, P p → p.move m = some q → P q) (hp : P p) (h : Platform.run ms p = some q) : P q := by
  induction ms generalizing p with
  | nil => cases h; exact hp
  | cons m ms ih =>
    obtain ⟨hhead, htail⟩ := List.forall_mem_cons.mp hmove
    obtain ⟨r, hr, h⟩ := Option.bind_eq_some_iff.mp h
    exact ih htail (hhead p r hp hr) h

/-- Without a reset an armed block stays armed (R17, R42). -/
theorem Platform.run_keeps_armed {ms : List Move} {p q : Platform} (hreset : .reset ∉ ms) (hp : PlatformInv p)
    (ha : p.block.regs.armed = true) (h : Platform.run ms p = some q) : q.block.regs.armed = true := by
  refine (Platform.run_keeps (P := fun p => PlatformInv p ∧ p.block.regs.armed = true) ?_ ⟨hp, ha⟩ h).2
  rintro m hm p q ⟨hp, ha⟩ hmove
  exact ⟨Platform.move_keeps_inv hp hmove, Platform.move_keeps_armed hp.released (fun e => hreset (e ▸ hm)) hmove ha⟩

end Machine
end Sys2Proof
end

section
/-! The statements about the platform of R131: what the requesters send (R109, R131, R142), MONITOR's life (R27), and
that the block sees their merged traffic only (R40) and never blocks it (R132). -/

namespace Sys2Proof
namespace Machine

open Sys2Proof.Safety

/-! ### The block's side -/

/-- Settles O59: the block takes any inputs, so the agent's turn alone decides. -/
theorem allowedMovesComplete : Obligations.AllowedMovesComplete := by
  intro p
  have htake (m : Move) := State.takeAll_total m.inputs p.block
  refine ⟨?_, fun m k hm => ?_, fun m k hm => ?_⟩
  · obtain ⟨t, ht⟩ := htake .reset
    exact ⟨_, by rw [Platform.move, ht]; rfl⟩
  · obtain ⟨t, ht⟩ := htake (.host m)
    exact ⟨{ block := t, host := k, monitor := p.monitor.watch p.block t }, by simp [Platform.move, ht, hm], rfl⟩
  · obtain ⟨t, ht⟩ := htake (.monitor m)
    exact ⟨{ block := t, host := p.host, monitor := k }, by simp [Platform.move, ht, hm], rfl⟩

/-- A run of the platform moves the block by the traffic of its moves, whatever comes after. -/
theorem Platform.run_traffic {ms : List Move} {p q : Platform} (ys : List Input) (h : Platform.run ms p = some q) :
    Sys2Proof.core.run (traffic ms).length (p.block.setInputs (traffic ms ++ ys)) = .next (q.block.setInputs ys) := by
  induction ms generalizing p with
  | nil => cases h; rfl
  | cons m ms ih =>
    obtain ⟨r, hr, h⟩ := Option.bind_eq_some_iff.mp h
    obtain ⟨hblock, -⟩ := Platform.move_cases hr
    rw [traffic_cons, List.length_append, List.append_assoc]
    exact run_add.mpr ⟨_, run_takeAll (traffic ms ++ ys) hblock, ih h⟩

/-- Settles O58: the run on the traffic, with nothing after it. -/
theorem platformRunIsABlockRun : Obligations.PlatformRunIsABlockRun := by
  intro ms p q hp h
  have hq : q.block.inputs = [] := by
    refine Platform.run_keeps (P := fun p => p.block.inputs = []) (fun m _ p q hp hmove => ?_) hp h
    exact (State.takeAll_inputs (Platform.move_cases hmove).1).trans hp
  have hrun := Platform.run_traffic [] h
  rw [List.append_nil, ← hq] at hrun
  exact hrun

/-! ### MONITOR -/

/-- Only the setters arm (R17). -/
theorem exec_arms {i : Instr} {s t : State} (h : exec i s = .next t) (ha : t.regs.armed = true) :
    s.regs.armed = true ∨ i.opcode = .setthrp ∨ i.opcode = .setthrt := by
  obtain e | ⟨_, _, _, e⟩ | ⟨_, _, _, e⟩ | ⟨_, _, rfl, _⟩ | ⟨_, _, rfl, _⟩ | ⟨_, ha, _⟩ | ⟨_, _, e⟩ := exec_regs_cases h
  case inr.inr.inr.inl => exact .inr (.inl rfl)
  case inr.inr.inr.inr.inl => exact .inr (.inr rfl)
  case inr.inr.inr.inr.inr.inl => exact .inl ha
  all_goals exact .inl (by simpa [e] using ha)

/-- MONITOR's own commands do not arm. -/
theorem MonitorMove.armed_of_takeAll {m : MonitorMove} {s t : State}
    (h : State.takeAll (Move.monitor m).inputs s = some t) (ha : t.regs.armed = true) : s.regs.armed = true := by
  obtain ⟨u, hu, rfl⟩ := MonitorMove.takeAll_iff.mp h
  obtain hs | hi | hi := exec_arms hu (armed_of_holdReset ha)
  · exact armed_of_holdReset hs
  · cases m <;> cases hi
  · cases m <;> cases hi

/-- Settles O55: the invariant is kept by `Platform.move_keeps_inv`; a rise is a setter's, so HOST's, and then MONITOR
watches it; watching and its own moves leave it present. -/
theorem monitorLivesFromArmingToReset : Obligations.MonitorLivesFromArmingToReset := by
  refine ⟨⟨rfl, rfl, by decide, fun _ => rfl⟩, fun p q m h => ⟨fun hp => Platform.move_keeps_inv hp h, ?_⟩⟩
  obtain ⟨hblock, ⟨rfl, hh, hm⟩ | ⟨k, rfl, -, hm⟩ | ⟨k, rfl, -, hm⟩⟩ := Platform.move_cases h
  · obtain ⟨hregs, -⟩ := State.takeAll_reset hblock
    exact ⟨fun hrise => by simp [armedRises_iff, hregs] at hrise, fun _ => ⟨hm, hh⟩,
      fun hne => absurd rfl hne⟩
  · rw [MonitorPhase.watch] at hm
    refine ⟨fun hrise => by rw [hm, if_pos hrise], nofun, fun _ hpresent => ?_⟩
    rw [hm]
    split
    · nofun
    · exact hpresent
  · refine ⟨fun hrise => ?_, nofun, fun _ _ => ?_⟩
    · obtain ⟨hp, hq⟩ := armedRises_iff.mp hrise
      simp [MonitorMove.armed_of_takeAll hblock hq] at hp
    · obtain ⟨-, -, hd⟩ | ⟨-, -, hd⟩ := MonitorPhase.after_cases hm <;> rw [hd] <;> nofun

theorem commandsOf_pollLoop_cons (b : RawBytes) (rest : List RawBytes) :
    commandsOf (pollLoop (b :: rest)) = encode b.sampleInstr :: encode .cmp :: commandsOf (pollLoop rest) := by
  rw [encode_sampleInstr]
  rfl

/-- Settles O51: one cycle per sampling. -/
theorem pollLoopAlternatesSampleAndCmp : Obligations.PollLoopAlternatesSampleAndCmp := by
  intro readings
  induction readings with
  | nil => rfl
  | cons b rest ih => rw [commandsOf_pollLoop_cons, ih]; rfl

/-- The CMP that MONITOR owes when it has sampled (R109). -/
def MonitorPhase.owed (m : MonitorPhase) : List Packet := if m = .comparing then [encode .cmp] else []

/-- Watching the block does not change what MONITOR owes. -/
theorem MonitorPhase.owed_watch {m : MonitorPhase} {s t : State} (hm : m = .absent ↔ s.regs.armed = false) :
    (m.watch s t).owed = m.owed := by
  cases hs : s.regs.armed with
  | true => rw [MonitorPhase.watch_of_armed m t hs]
  | false =>
    rw [MonitorPhase.watch, hm.mpr hs]
    split <;> rfl

/-- What MONITOR owes, then whole cycles: its frames are a beginning of that. -/
theorem monitorFrames_prefix {ms : List Move} {p q : Platform} (hreset : .reset ∉ ms) (hp : PlatformInv p)
    (h : Platform.run ms p = some q) :
    ∃ readings, framesOf .monitor (traffic ms) <+: p.monitor.owed ++ commandsOf (pollLoop readings) := by
  induction ms generalizing p with
  | nil => exact ⟨[], List.nil_prefix⟩
  | cons m ms ih =>
    obtain ⟨r, hr, h⟩ := Option.bind_eq_some_iff.mp h
    obtain ⟨readings, hprefix⟩ := ih (fun hm => hreset (List.mem_cons_of_mem m hm)) (Platform.move_keeps_inv hp hr) h
    rw [traffic_cons, framesOf_append]
    obtain ⟨-, ⟨rfl, -⟩ | ⟨k, rfl, -, hm⟩ | ⟨k, rfl, -, hm⟩⟩ := Platform.move_cases hr
    · exact absurd List.mem_cons_self hreset
    · rw [hm, MonitorPhase.owed_watch hp.monitor_armed] at hprefix
      exact ⟨readings, by simpa using hprefix⟩
    · rw [framesOf_monitor_monitor, MonitorMove.commands_eq]
      obtain ⟨hc, ⟨b, rfl⟩, hd⟩ | ⟨hc, rfl, hd⟩ := MonitorPhase.after_cases hm <;> rw [hd] at hprefix <;> rw [hc]
      · refine ⟨b :: readings, ?_⟩
        rw [commandsOf_pollLoop_cons]
        exact List.cons_prefix_cons.mpr ⟨rfl, hprefix⟩
      · exact ⟨readings, List.cons_prefix_cons.mpr ⟨rfl, hprefix⟩⟩

/-- MONITOR exists only while the block is armed, and without a reset it stays so: an idle end means no frame. -/
theorem monitorFrames_of_idle {ms : List Move} {p q : Platform} (hreset : .reset ∉ ms) (hp : PlatformInv p)
    (h : Platform.run ms p = some q) (hidle : q.block.regs.armed = false) : framesOf .monitor (traffic ms) = [] := by
  induction ms generalizing p with
  | nil => rfl
  | cons m ms ih =>
    have hpidle : p.block.regs.armed = false := by
      rw [← Bool.not_eq_true]
      intro ha
      simp [Platform.run_keeps_armed hreset hp ha h] at hidle
    obtain ⟨r, hr, h⟩ := Option.bind_eq_some_iff.mp h
    have hreset' : .reset ∉ ms := fun hm => hreset (List.mem_cons_of_mem m hm)
    rw [traffic_cons, framesOf_append, ih hreset' (Platform.move_keeps_inv hp hr) h]
    obtain ⟨-, ⟨rfl, -⟩ | ⟨k, rfl, -⟩ | ⟨k, rfl, -, hm⟩⟩ := Platform.move_cases hr
    · rfl
    · rw [framesOf_monitor_host, List.append_nil]
    · rw [hp.monitor_armed.mpr hpidle] at hm
      cases k <;> cases hm

/-- Settles O56: both clauses by induction on the moves. -/
theorem monitorSendsThePollLoop : Obligations.MonitorSendsThePollLoop := fun _ _ _ hreset hp h =>
  ⟨monitorFrames_prefix hreset hp h, monitorFrames_of_idle hreset hp h⟩

/-! ### HOST -/

/-- What R131 says of the frames HOST sends from one standing to another with no reset between. -/
structure HostTraffic (h k : HostAgent) (fs : List Packet) : Prop where
  ldcal_once : fs.countP isLdcal + h.initDone.toNat ≤ k.initDone.toNat
  config_before_init : k.initDone = false → ∀ f ∈ fs,
    ∃ upper lower, f = encode (.setthrp upper lower) ∨ f = encode (.setthrt upper lower)
  no_cmp : encode .cmp ∉ fs

theorem isLdcal_encode (i : Instr) : isLdcal (encode i) = decide (i.opcode = .ldcal) := by
  cases i <;> rfl

/-- What HOST may do next: its one `INIT`, threshold configuration, and after `INIT` any other command but CMP. -/
theorem HostAgent.after_cases {h k : HostAgent} {m : HostMove} (hm : h.after m = some k) :
    (∃ block, m = .init block ∧ h.initDone = false ∧ k.initDone = true)
    ∨ ((∃ u l, m.instr = some (.setthrp u l) ∨ m.instr = some (.setthrt u l)) ∧ k = h)
    ∨ (h.initDone = true ∧ k.initDone = true ∧ ∃ i, m.instr = some i ∧ i.opcode ≠ .ldcal ∧ i ≠ .cmp) := by
  cases m with
  | init block =>
    simp only [HostAgent.after] at hm
    split at hm
    case isTrue => cases hm
    case isFalse hinit => cases hm; exact .inl ⟨block, rfl, Bool.eq_false_iff.mpr hinit, rfl⟩
  | configurePressure u l => cases hm; exact .inr (.inl ⟨⟨u, l, .inl rfl⟩, rfl⟩)
  | configureTemperature u l => cases hm; exact .inr (.inl ⟨⟨u, l, .inr rfl⟩, rfl⟩)
  | getterRead g =>
    simp only [HostAgent.after] at hm
    split at hm
    case isTrue hinit => cases hm; exact .inr (.inr ⟨hinit.1, hinit.1, _, rfl, nofun, nofun⟩)
    case isFalse => cases hm
  | getterSample | rd | dec | evclr =>
    simp only [HostAgent.after] at hm
    split at hm
    case isTrue hinit => cases hm; exact .inr (.inr ⟨hinit, hinit, _, rfl, nofun, nofun⟩)
    case isFalse => cases hm

namespace HostTraffic

theorem nil (h : HostAgent) : HostTraffic h h [] := ⟨by simp, nofun, nofun⟩

theorem append {h k l : HostAgent} {fs gs : List Packet} (hf : HostTraffic h k fs) (hg : HostTraffic k l gs) :
    HostTraffic h l (fs ++ gs) := by
  obtain ⟨honce, hconfig, hcmp⟩ := hf
  obtain ⟨honce', hconfig', hcmp'⟩ := hg
  refine ⟨by rw [List.countP_append]; omega, fun hl => ?_, by simp [hcmp, hcmp']⟩
  have hk : k.initDone = false := by
    rw [hl] at honce'
    cases hk : k.initDone with
    | false => rfl
    | true => simp [hk] at honce'
  exact List.forall_mem_append.mpr ⟨hconfig hk, hconfig' hl⟩

theorem cmp_notMem {i : Instr} (hi : i ≠ .cmp) : encode .cmp ∉ [encode i] := by
  rw [List.mem_singleton]
  exact fun e => hi (encode_injective e).symm

theorem of_after {h k : HostAgent} {m : HostMove} (hm : h.after m = some k) : HostTraffic h k m.commands := by
  rw [HostMove.commands_eq]
  obtain ⟨block, rfl, hh, hk⟩ | ⟨⟨u, l, hi | hi⟩, rfl⟩ | ⟨hh, hk, i, hi, hl, hc⟩ := HostAgent.after_cases hm
  · cases block with
    | none => exact ⟨by simp [HostMove.instr, hh], by simp [hk], nofun⟩
    | some b => exact ⟨by simp [HostMove.instr, isLdcal_encode, Instr.opcode, hh, hk], by simp [hk], cmp_notMem nofun⟩
  · rw [hi]
    exact ⟨by simp [isLdcal_encode, Instr.opcode], fun _ => List.forall_mem_singleton.mpr ⟨u, l, .inl rfl⟩,
      cmp_notMem nofun⟩
  · rw [hi]
    exact ⟨by simp [isLdcal_encode, Instr.opcode], fun _ => List.forall_mem_singleton.mpr ⟨u, l, .inr rfl⟩,
      cmp_notMem nofun⟩
  · rw [hi]
    exact ⟨by simp [isLdcal_encode, hl, hh, hk], by simp [hk], cmp_notMem hc⟩

theorem of_run {ms : List Move} {p q : Platform} (hreset : .reset ∉ ms) (h : Platform.run ms p = some q) :
    HostTraffic p.host q.host (framesOf .host (traffic ms)) := by
  induction ms generalizing p with
  | nil => cases h; exact nil _
  | cons m ms ih =>
    obtain ⟨r, hr, h⟩ := Option.bind_eq_some_iff.mp h
    have htail := ih (fun hm => hreset (List.mem_cons_of_mem m hm)) h
    rw [traffic_cons, framesOf_append]
    obtain ⟨-, ⟨rfl, -⟩ | ⟨k, rfl, hh, -⟩ | ⟨k, rfl, hh, -⟩⟩ := Platform.move_cases hr
    · exact absurd List.mem_cons_self hreset
    · rw [framesOf_host_host]
      exact (of_after hh).append htail
    · rw [framesOf_host_monitor]
      exact hh ▸ htail

end HostTraffic

/-- An instruction is answered `LOCKED` only if it is an LDCAL that finds `CALV` set (R76, R121). -/
theorem exec_not_locked {i : Instr} {s t : State} (hi : i.opcode = .ldcal → s.regs.calv = false)
    (h : exec i s = .next t) : ∃ o : Output, t.out = s.out ++ [o] ∧ o.rsp ≠ [0x02] := by
  obtain ⟨st, payload, hit, edge, hout, hanswer⟩ := exec_answer h
  refine ⟨_, hout, fun hlocked => ?_⟩
  cases hlocked
  obtain ⟨hst, -⟩ | ⟨-, -, hop, hcalv⟩ | ⟨hst, -⟩ := hanswer
  · cases hst
  · simp [hi hop] at hcalv
  · cases hst

theorem State.takeAll_reset_out {s t : State} (h : State.takeAll Move.reset.inputs s = some t) : t.out = s.out := by
  cases h
  rfl

/-- A move from a platform that meets the invariant is never answered `LOCKED`: HOST's LDCAL comes in its `INIT`, before
which `CALV = 0` (R131, R142). -/
theorem Platform.move_not_locked {p q : Platform} {m : Move} (hp : PlatformInv p) (h : p.move m = some q)
    (hout : ∀ o ∈ p.block.out, o.rsp ≠ [0x02]) : ∀ o ∈ q.block.out, o.rsp ≠ [0x02] := by
  have hexec {i : Instr} {u : State} (hi : i.opcode = .ldcal → p.block.regs.calv = false)
      (hu : exec i (holdReset p.block) = .next u) : ∀ o ∈ (holdReset u).out, o.rsp ≠ [0x02] := by
    rw [holdReset_released hp.released] at hu
    obtain ⟨o, ho, hrsp⟩ := exec_not_locked hi hu
    rw [holdReset_out]
    exact forall_out_of_answer ho hout hrsp
  obtain ⟨hblock, ⟨rfl, -⟩ | ⟨k, rfl, hh, -⟩ | ⟨k, rfl, -⟩⟩ := Platform.move_cases h
  · rw [State.takeAll_reset_out hblock]
    exact hout
  · obtain ⟨-, hq⟩ | ⟨i, u, hi, hu, hq⟩ := HostMove.takeAll_cases hblock <;> rw [hq]
    · exact hout
    · refine hexec (fun hl => ?_) hu
      obtain ⟨block, rfl, hinit, -⟩ | ⟨⟨_, _, he | he⟩, -⟩ | ⟨-, -, j, hj, hne, -⟩ := HostAgent.after_cases hh
      · exact hp.init_first hinit
      · cases hi.symm.trans he; cases hl
      · cases hi.symm.trans he; cases hl
      · cases hi.symm.trans hj; exact absurd hl hne
  · obtain ⟨u, hu, hq⟩ := MonitorMove.takeAll_iff.mp hblock
    rw [hq]
    refine hexec (fun hl => ?_) hu
    cases k <;> cases hl

/-- Settles O57: HOST's standing counts its `INIT`; from reset no move is answered `LOCKED`. -/
theorem hostIssuesInitOnce : Obligations.HostIssuesInitOnce := by
  constructor
  · intro ms p q hreset h
    obtain ⟨honce, hconfig, hcmp⟩ := HostTraffic.of_run hreset h
    exact ⟨honce.trans (Bool.toNat_le _), hconfig, hcmp⟩
  · intro ms q h
    have hreset : PlatformInv Platform.reset := monitorLivesFromArmingToReset.1
    refine (Platform.run_keeps (P := fun p => PlatformInv p ∧ ∀ o ∈ p.block.out, o.rsp ≠ [0x02]) ?_ ⟨hreset, nofun⟩ h).2
    rintro m - p q ⟨hp, hout⟩ hmove
    exact ⟨Platform.move_keeps_inv hp hmove, Platform.move_not_locked hp hmove hout⟩

end Machine
end Sys2Proof
end
